-- ==== Sys2Proof/Word.lean ====
section
/-! DEFINITION. The word types of the stepping engine's fields (00_scope.md R10: bit 0 is the least
significant bit, every value unsigned). -/

namespace Sys2Proof

/-- A byte as a host-side transport carries it (30_encoding.md R64). -/
abbrev Byte := BitVec 8

/-- A command word `cmd[2:0]` (30_encoding.md R60). -/
abbrev CmdWord := BitVec 3

/-- A response word `resp[7:0] = {status[1:0], value[5:0]}` (30_encoding.md R65). -/
abbrev RespWord := BitVec 8

/-- A sink command word `{kind, chan[3:0], value[11:0]}` (43_actuation_sink.md R161). -/
abbrev SinkWord := BitVec 17

/-- The position register, as wide as `pos_out` (10_state.md R21, R31; log entry 4). -/
abbrev PosReg := BitVec 6

/-- A coil-current magnitude, one entry of the curve table (41_curve_lut.md R120). -/
abbrev Magnitude := BitVec 8

/-- An analog duty (41_curve_lut.md R126). -/
abbrev Duty := BitVec 12

/-- A coil-enable mask (42_latch_encoder.md R140). -/
abbrev Mask := BitVec 4

/-- A sink channel number (00_scope.md R9). -/
abbrev Channel := BitVec 4

end Sys2Proof
end

