-- ==== Sys2Proof/Config.lean ====
section
/-! DEFINITION. What construction fixes for an engine's whole life (00_scope.md R8, R9, 10_state.md R26),
the default tables of 41_curve_lut.md R123, and the one free value of the model. -/

namespace Sys2Proof

/-- The legal values of `M`, the number of microsteps per quadrant (00_scope.md R8). -/
inductive PhaseWidth where
  | m8
  | m16
deriving DecidableEq, Repr

/-- `M` itself (00_scope.md R8). -/
def PhaseWidth.val : PhaseWidth → Nat
  | .m8 => 8
  | .m16 => 16

/-- The legal `M` named by a number, if it is one (41_curve_lut.md R122, 60_exceptions.md R180). -/
def PhaseWidth.ofNat? (m : Nat) : Option PhaseWidth :=
  if m = 8 then some .m8 else if m = 16 then some .m16 else none

/-- `H`, half a quadrant (00_scope.md R8). -/
def PhaseWidth.half (m : PhaseWidth) : Nat := m.val / 2

/-- `N`, the length of the position cycle (00_scope.md R8). -/
def PhaseWidth.cycle (m : PhaseWidth) : Nat := 4 * m.val

/-- `W`, the width of the position register (00_scope.md R8). -/
def PhaseWidth.posBits : PhaseWidth → Nat
  | .m8 => 5
  | .m16 => 6

/-- The six sink channels the engine writes (10_state.md R26). -/
structure ChannelMap where
  chA : Channel
  chB : Channel
  chPin0 : Channel
  chPin1 : Channel
  chPin2 : Channel
  chPin3 : Channel
deriving DecidableEq, Repr

/-- The configuration of a constructed engine (10_state.md R26), constant for its lifetime. -/
structure EngineConfig where
  m : PhaseWidth
  curve : List Magnitude
  channels : ChannelMap
deriving DecidableEq, Repr

/-- The arguments of a construction as they arrive, checked by nobody yet (70_reset_and_hazards.md R200).
The four pin channels are `CH_PIN[0]` to `CH_PIN[3]`. -/
structure ConstructionArgs where
  m : Nat
  curve : List Nat
  chA : Nat
  chB : Nat
  chPin0 : Nat
  chPin1 : Nat
  chPin2 : Nat
  chPin3 : Nat
deriving DecidableEq, Repr

/-- What one sink channel holds (10_state.md R30). `fullyOn` is the sink's own sentinel; it has no number
(43_actuation_sink.md R163, 93 U4; log entry 20). -/
inductive ChanState where
  | unwritten
  | duty (d : Duty)
  | fullyOn
  | pin (b : Bool)
deriving DecidableEq, Repr, Inhabited

namespace Config

/-- `DUTY_SCALE` (00_scope.md R8). -/
def dutyScale : Nat := 16

/-- `FULL`, the magnitude of the non-microstep styles (00_scope.md R8, 41_curve_lut.md R124). -/
def full : Magnitude := 255#8

/-- PRESUMED (log entry 2; 93 GK1): the default table for `M = 16`. 41_curve_lut.md R121 fixes entries 0, 1, 15
and 16 only; the others are R123's defaults, from general knowledge. -/
def defaultCurve16 : List Nat :=
  [0, 25, 50, 74, 98, 120, 141, 162, 180, 197, 212, 225, 236, 244, 250, 253, 255]

/-- PRESUMED (log entry 2; 93 GK1): the default table for `M = 8`. 41_curve_lut.md R121 fixes entries 0 and 8
only. -/
def defaultCurve8 : List Nat := [0, 50, 98, 142, 180, 212, 236, 250, 255]

/-- DESIGN CHOICE (log entry 1): the construction `State.reset` stands for, vector K1 of 95_test_vectors.md. -/
def resetArgs : ConstructionArgs :=
  { m := 16, curve := defaultCurve16,
    chA := 0, chB := 1, chPin0 := 2, chPin1 := 3, chPin2 := 4, chPin3 := 5 }

/-- FREE VALUE (log entry 5): what the `n`-th failed sink command leaves on its channel, any value of
10_state.md R30's domain (60_exceptions.md R183(c)). It has no body: nothing constrains it. -/
opaque freeChannel : Nat → ChanState

end Config

end Sys2Proof
end

