-- ==== Sys2Proof/Syntax.lean ====
section
/-! DEFINITION. The command set (30_encoding.md R60 to R63): one constructor per row of spec/opcode_table.json. -/

namespace Sys2Proof

/-- 00_scope.md R13. -/
inductive Direction where
  | forward
  | backward
deriving DecidableEq, Repr

/-- 00_scope.md R13. -/
inductive Style where
  | single
  | double
  | interleave
  | microstep
deriving DecidableEq, Repr

/-- The eight step commands. A command word carries no register number and no immediate (30_encoding.md R62). -/
inductive Instr where
  | stepFSingle
  | stepBSingle
  | stepFDouble
  | stepBDouble
  | stepFInterleave
  | stepBInterleave
  | stepFMicrostep
  | stepBMicrostep
deriving DecidableEq, Repr

/-- The direction of a command (30_encoding.md R63). -/
def Instr.direction : Instr → Direction
  | .stepFSingle => .forward
  | .stepBSingle => .backward
  | .stepFDouble => .forward
  | .stepBDouble => .backward
  | .stepFInterleave => .forward
  | .stepBInterleave => .backward
  | .stepFMicrostep => .forward
  | .stepBMicrostep => .backward

/-- The style of a command (30_encoding.md R63). -/
def Instr.style : Instr → Style
  | .stepFSingle => .single
  | .stepBSingle => .single
  | .stepFDouble => .double
  | .stepBDouble => .double
  | .stepFInterleave => .interleave
  | .stepBInterleave => .interleave
  | .stepFMicrostep => .microstep
  | .stepBMicrostep => .microstep

/-- The command of a direction and a style (00_scope.md R2: two directions times four styles). -/
def Instr.ofFields : Direction → Style → Instr
  | .forward, .single => .stepFSingle
  | .backward, .single => .stepBSingle
  | .forward, .double => .stepFDouble
  | .backward, .double => .stepBDouble
  | .forward, .interleave => .stepFInterleave
  | .backward, .interleave => .stepBInterleave
  | .forward, .microstep => .stepFMicrostep
  | .backward, .microstep => .stepBMicrostep

end Sys2Proof
end

