-- ==== Sys2Proof/WellFormed.lean ====
section
/-! DEFINITION. What is checked before a term has a meaning. A command has no operand field (30_encoding.md R62),
so every command is well formed; the checks are those on the construction arguments: `M` (41_curve_lut.md R122),
the table (41_curve_lut.md R121) and the channel map (00_scope.md R9), and the readiness of the sink
(70_reset_and_hazards.md R204). -/

namespace Sys2Proof

/-- Every command is well formed: it has no field to be wrong (30_encoding.md R62, R64). -/
def Instr.wellFormed (_ : Instr) : Bool := true

/-- The one check the engine itself makes: `M` is 8 or 16 (41_curve_lut.md R122). -/
def phaseWidthOk (m : Nat) : Bool := m == 8 || m == 16

/-- 41_curve_lut.md R121(a): exactly `M + 1` entries. -/
def curveLengthOk (m : Nat) (curve : List Nat) : Bool := curve.length == m + 1

/-- 41_curve_lut.md R121(b): every entry is an integer in 0..255. -/
def curveEntriesOk (curve : List Nat) : Bool := curve.all (· ≤ 255)

/-- 41_curve_lut.md R121(c): `CURVE[i] ≤ CURVE[i+1]` for `0 ≤ i < M`. -/
def curveMonotone (m : Nat) (curve : List Nat) : Bool :=
  (List.range m).all fun i => curve.getD i 0 ≤ curve.getD (i + 1) 0

/-- 41_curve_lut.md R121(d): `CURVE[0] = 0` and `CURVE[M] = 255`. -/
def curveEndsOk (m : Nat) (curve : List Nat) : Bool :=
  curve[0]? == some 0 && curve[m]? == some 255

/-- 41_curve_lut.md R121(e): for `M = 16`, `CURVE[1] = 25` and `CURVE[15] = 253`. -/
def curveScenarioOk (m : Nat) (curve : List Nat) : Bool :=
  m != 16 || (curve[1]? == some 25 && curve[15]? == some 253)

/-- 41_curve_lut.md R121, all of (a) to (e). -/
def curveOk (m : Nat) (curve : List Nat) : Bool :=
  curveLengthOk m curve && curveEntriesOk curve && curveMonotone m curve && curveEndsOk m curve &&
    curveScenarioOk m curve

/-- The six channel numbers of a construction, `CH_A`, `CH_B`, `CH_PIN[0]` to `CH_PIN[3]`. -/
def ConstructionArgs.channelList (a : ConstructionArgs) : List Nat :=
  [a.chA, a.chB, a.chPin0, a.chPin1, a.chPin2, a.chPin3]

/-- 00_scope.md R9: every channel number lies in 0..15. -/
def channelsInRange (a : ConstructionArgs) : Bool := a.channelList.all (· ≤ 15)

/-- 00_scope.md R9: the six channels are pairwise distinct. -/
def channelsDistinct (a : ConstructionArgs) : Bool := decide a.channelList.Nodup

/-- 00_scope.md R9, whole. -/
def channelsOk (a : ConstructionArgs) : Bool := channelsInRange a && channelsDistinct a

/-- 70_reset_and_hazards.md R204 (1): the sink is ready to accept commands on the six configured channels; `ready` lists
the channels on which it is (log entry 24). -/
def sinkReadyOn (a : ConstructionArgs) (ready : List Nat) : Bool := a.channelList.all (ready.contains ·)

/-- The configuration a construction with a legal `M` fixes (70_reset_and_hazards.md R200 (2), (3)). -/
def ConstructionArgs.config (a : ConstructionArgs) (m : PhaseWidth) : EngineConfig :=
  { m := m, curve := a.curve.map (BitVec.ofNat 8),
    channels := { chA := BitVec.ofNat 4 a.chA, chB := BitVec.ofNat 4 a.chB,
                  chPin0 := BitVec.ofNat 4 a.chPin0, chPin1 := BitVec.ofNat 4 a.chPin1,
                  chPin2 := BitVec.ofNat 4 a.chPin2, chPin3 := BitVec.ofNat 4 a.chPin3 } }

/-- A configuration read back as construction arguments. -/
def EngineConfig.args (c : EngineConfig) : ConstructionArgs :=
  { m := c.m.val, curve := c.curve.map BitVec.toNat,
    chA := c.channels.chA.toNat, chB := c.channels.chB.toNat,
    chPin0 := c.channels.chPin0.toNat, chPin1 := c.channels.chPin1.toNat,
    chPin2 := c.channels.chPin2.toNat, chPin3 := c.channels.chPin3.toNat }

/-- A configuration that construction can fix: table and channel map meet R121 and R9 (60_exceptions.md R181). -/
def EngineConfig.legal (c : EngineConfig) : Bool := curveOk c.m.val c.args.curve && channelsOk c.args

end Sys2Proof
end

