-- ==== Sys2Proof/Decode.lean ====
section
/-! DEFINITION. Decoding of command words (30_encoding.md R60, R61, R63, R64), the encoder written from the same
table, and the host-side transport's refusal of a wider word (R64). -/

namespace Sys2Proof

/-- Why a transported word names no command: it has a bit above bit 2 set (30_encoding.md R64). -/
inductive DecodeError where
  | wideCommandWord (word : Byte)
deriving DecidableEq, Repr

/-- `Direction(cmd)`, from `cmd[0]` (30_encoding.md R61). -/
def directionOf (cmd : CmdWord) : Direction := if cmd.getLsbD 0 then .backward else .forward

/-- `Style(cmd)`, from `cmd[2:1]` (30_encoding.md R61). -/
def styleOf (cmd : CmdWord) : Style :=
  match (cmd.extractLsb' 1 2).toNat with
  | 0 => .single
  | 1 => .double
  | 2 => .interleave
  | _ => .microstep

/-- The decoder of command words: total, never "illegal" (30_encoding.md R64). -/
def decodeWord (cmd : CmdWord) : Instr := Instr.ofFields (directionOf cmd) (styleOf cmd)

/-- The host-side transport: a byte with a bit above bit 2 set is refused and never reaches the engine
(30_encoding.md R64; log entry 11). -/
def transport (b : Byte) : Except DecodeError CmdWord :=
  if b.toNat < 8 then .ok (b.setWidth 3) else .error (.wideCommandWord b)

/-- Decoding of one transported byte, total on every byte. -/
def decode (b : Byte) : Except DecodeError Instr :=
  match transport b with
  | .ok cmd => .ok (decodeWord cmd)
  | .error e => .error e

/-- `cmd[0]` of a direction (30_encoding.md R60). -/
def Direction.code : Direction → BitVec 1
  | .forward => 0#1
  | .backward => 1#1

/-- `cmd[2:1]` of a style (30_encoding.md R60). -/
def Style.code : Style → BitVec 2
  | .single => 0b00#2
  | .double => 0b01#2
  | .interleave => 0b10#2
  | .microstep => 0b11#2

/-- The command word of a command: the style in `cmd[2:1]`, the direction in `cmd[0]` (30_encoding.md R60). -/
def encode (i : Instr) : CmdWord := i.style.code ++ i.direction.code

/-- The command word as a transport of bytes carries it, the five bits above it 0 (30_encoding.md R64). -/
def encodeByte (i : Instr) : Byte := (encode i).setWidth 8

/-- The byte a transport carries for a table word of `nbits` bits. A word too wide for a byte has a bit above
bit 2 set and travels as 0xFF, which the transport refuses just the same. -/
def tableByte (nbits w : Nat) : Byte :=
  if w % 2 ^ nbits < 256 then BitVec.ofNat 8 (w % 2 ^ nbits) else 0xFF#8

/-- The instruction decoded from a table word (bit 0 the least significant bit of the one command word). -/
def decodeTableWord (nbits w : Nat) : Option Instr :=
  match decode (tableByte nbits w) with
  | .ok i => some i
  | .error _ => none

end Sys2Proof
end

