-- ==== Sys2Proof/Machine/State.lean ====
section
/-! DEFINITION. The state of the engine and of the two agents it talks to (10_state.md), the reasons a step can
stop, and the state after construction. -/

namespace Sys2Proof.Machine

open Sys2Proof

/-- What the host does next on the command channel (70_reset_and_hazards.md R206; log entry 7). -/
inductive HostEvent where
  /-- The host lets a step of the machine pass ("wait any length of time between commands"). -/
  | pause
  /-- The host's transport presents a word and keeps it presented until it is accepted (R205). -/
  | present (word : Byte)
deriving DecidableEq, Repr

/-- What the sink does next about the outstanding sink command (43_actuation_sink.md R164; log entry 6). -/
inductive SinkAnswer where
  /-- No answer yet: the engine places no time bound on the sink. -/
  | wait
  | done
  | err
deriving DecidableEq, Repr

/-- How a sink command ended (43_actuation_sink.md R164). -/
inductive SinkEnding where
  | done
  | err
deriving DecidableEq, Repr

/-- A sink command (43_actuation_sink.md R161). -/
inductive SinkCmd where
  /-- `setAnalogDuty(channel, magnitude)`. -/
  | analogDuty (chan : Channel) (value : Duty)
  /-- `setDigitalPin(channel, boolean)`. -/
  | digitalPin (chan : Channel) (value : Bool)
deriving DecidableEq, Repr

/-- The fault register (10_state.md R29). -/
inductive FaultReg where
  | none
  | sinkFault (k : Fin 6)
deriving DecidableEq, Repr

/-- The emission latches `lat_a`, `lat_b`, `lat_mask`, always written together (10_state.md R28). -/
structure Latches where
  a : Duty
  b : Duty
  mask : Mask
deriving DecidableEq, Repr

/-- The sink's channel space (20_memory.md R40(b)), as a list of (channel, content) with strictly rising
channels. A channel that is not listed is `unwritten` (10_state.md R30). -/
abbrev Memory := List (Nat × ChanState)

/-- Why the machine stops with a fault. -/
inductive Fault where
  /-- Raised by `construct` when `M` is neither 8 nor 16; carries the rejected `M` (60_exceptions.md R180).
  Safe: it is the spec's own error, and no engine exists after it. -/
  | configurationError (m : Nat)
  /-- Raised by the end of a sink command while the emission latches are unwritten (10_state.md R28, 93 U12).
  Safe: no state with the invariant has it. -/
  | unwrittenLatch
  /-- Raised by a sink answer when `busy = 1` and `emit_idx = 6`, so that no sink command is outstanding
  (43_actuation_sink.md R165; log entry 15). Safe: no state with the invariant has it. -/
  | noCommandOutstanding
deriving DecidableEq, Repr

/-- Why the model gives no meaning. -/
inductive Refusal where
  /-- Raised by an arm of `exec` whose instruction has no meaning yet. No arm raises it. Safe. -/
  | notModelled (mnemonic : String)
  /-- Raised by `step` when the host's transport carries a word with a bit above bit 2 set (30_encoding.md R64).
  Safe: the spec has the transport refuse it. -/
  | wideCommandWord (word : Byte)
  /-- Raised by `construct` for a table that breaks 41_curve_lut.md R121 (60_exceptions.md R181). Safe. -/
  | curveTablePremise
  /-- Raised by `construct` for a channel map that breaks 00_scope.md R9 (60_exceptions.md R181). Safe. -/
  | channelMapPremise
  /-- Raised by `launch` when the sink is not ready on the six configured channels (70_reset_and_hazards.md R204 (1);
  log entry 24). Safe: the spec has a model take it as a premise. -/
  | sinkReadyPremise
  /-- Raised by the accept of a command whose curve index lies outside the table, which only a table breaking
  41_curve_lut.md R121(a) allows (R127, 92 D19; log entry 14). Safe: no state with the invariant has it. -/
  | tableIndexOutOfRange
deriving DecidableEq, Repr

/-- The machine's state. The first six fields are the engine's (10_state.md R26 to R29), `sink` is the sink's
(R30), and the rest is what passes over the channels, as plain data (log entries 5, 6, 7, 16). -/
structure State where
  /-- `M`, `CURVE` and the channel map, constant (10_state.md R26). -/
  cfg : EngineConfig
  /-- The position register (10_state.md R21). -/
  pos : PosReg
  /-- The busy flag (10_state.md R27). -/
  busy : Bool
  /-- `lat_a`, `lat_b`, `lat_mask`; `none` while unwritten (10_state.md R28). -/
  lat : Option Latches
  /-- `emit_idx`, the number of this step's sink commands already completed, 0..6 (10_state.md R28). -/
  emitIdx : Fin 7
  /-- The fault register (10_state.md R29). -/
  fault : FaultReg
  /-- What the sink's channels hold (10_state.md R30). -/
  sink : Memory
  /-- What the host has yet to do on the command channel. -/
  hostIn : List HostEvent
  /-- What the sink has yet to answer. -/
  sinkIn : List SinkAnswer
  /-- The responses sent so far, oldest first (70_reset_and_hazards.md R207). -/
  responses : List RespWord
  /-- The sink words that have ended and how, oldest first (43_actuation_sink.md R162). -/
  sinkTrace : List (SinkWord × SinkEnding)
  /-- How many free values have been drawn (log entry 5). -/
  freeDraws : Nat
deriving DecidableEq, Repr

/-- The engine right after a successful construction, over a sink whose channels it leaves as they are
(70_reset_and_hazards.md R200 (4)). -/
def State.constructed (cfg : EngineConfig) (sink : Memory) : State :=
  { cfg := cfg, pos := 0#6, busy := false, lat := none, emitIdx := 0, fault := .none, sink := sink,
    hostIn := [], sinkIn := [], responses := [], sinkTrace := [], freeDraws := 0 }

/-- The machine after reset: the construction of vector K1 over a sink with every channel unwritten
(70_reset_and_hazards.md R200; the configuration is log entry 1's DESIGN CHOICE). -/
def State.reset : State := State.constructed (Config.resetArgs.config .m16) []

end Sys2Proof.Machine
end

