-- ==== Sys2Proof/Machine/Memory.lean ====
section
/-! DEFINITION. The sink's channel space (20_memory.md R40(b), 10_state.md R30): reading and writing one channel
of the canonical list. -/

namespace Sys2Proof.Machine

open Sys2Proof

/-- What a channel that is not listed holds: `Unwritten`, no value (10_state.md R30). -/
def Memory.unlisted : ChanState := .unwritten

/-- The canonical form: strictly rising channels, each in 0..15, none listed as unwritten. -/
abbrev Memory.wf (m : Memory) : Prop :=
  m.Pairwise (fun x y => x.1 < y.1) ∧ ∀ e ∈ m, e.1 < 16 ∧ e.2 ≠ Memory.unlisted

/-- What channel `c` holds (10_state.md R30). The engine never reads it (20_memory.md R40(b)). -/
def Memory.read : Memory → Nat → ChanState
  | [], _ => Memory.unlisted
  | (a, x) :: rest, c => if c = a then x else Memory.read rest c

/-- Channel `c` becomes `v`; a channel that becomes unwritten is listed no more. -/
def Memory.write : Memory → Nat → ChanState → Memory
  | [], c, v => if v = Memory.unlisted then [] else [(c, v)]
  | (a, x) :: rest, c, v =>
    if c < a then (if v = Memory.unlisted then (a, x) :: rest else (c, v) :: (a, x) :: rest)
    else if c = a then (if v = Memory.unlisted then rest else (c, v) :: rest)
    else (a, x) :: Memory.write rest c v

/-- `setAnalogDuty(c, d)`: channel `c` becomes `Duty(d)`; a magnitude above 4095 is clamped by the sink to its
"fully on" sentinel (43_actuation_sink.md R163). -/
def setAnalogDuty (m : Memory) (c : Channel) (magnitude : Nat) : Memory :=
  Memory.write m c.toNat (if magnitude ≤ 4095 then .duty (BitVec.ofNat 12 magnitude) else .fullyOn)

/-- `setDigitalPin(c, b)`: channel `c` becomes `Pin(b)` (43_actuation_sink.md R163). -/
def setDigitalPin (m : Memory) (c : Channel) (b : Bool) : Memory :=
  Memory.write m c.toNat (.pin b)

end Sys2Proof.Machine
end

