-- ==== Sys2Proof/Machine/Flags.lean ====
section
/-! DEFINITION. The block has no status flags (10_state.md R24). What stands in their place: the octant and
quadrant of a position and the odd/even test, recomputed at each step and never stored (40_step_fsm.md R82), and
the levels the engine shows on its channels (43_actuation_sink.md R160). -/

namespace Sys2Proof.Machine

open Sys2Proof

/-- `Octant(s) = s // (M/2)` (40_step_fsm.md R82). -/
def octant (m : PhaseWidth) (s : Nat) : Nat := s / (m.val / 2)

/-- `Quadrant(s) = s // M` (40_step_fsm.md R82). -/
def quadrant (m : PhaseWidth) (s : Nat) : Nat := s / m.val

/-- The odd/even test of 40_step_fsm.md R83. -/
def octantOdd (m : PhaseWidth) (s : Nat) : Bool := octant m s % 2 == 1

/-- `cmd_ready = (busy = 0 and fault = NONE)` (43_actuation_sink.md R160). -/
def cmdReady (s : State) : Bool := !s.busy && decide (s.fault = .none)

/-- `pos_out = zext_6(pos)` (10_state.md R31). -/
def posOut (s : State) : BitVec 6 := s.pos

/-- The code of the fault register (60_exceptions.md R185). -/
def faultCode : FaultReg → Nat
  | .none => 0
  | .sinkFault _ => 2

end Sys2Proof.Machine
end

