-- ==== Sys2Proof/Machine/Operands.lean ====
section
/-! DEFINITION. What a command computes from the position: the advance and the wrap (40_step_fsm.md R83 to R85),
the magnitudes (41_curve_lut.md R124 to R126) and the mask (42_latch_encoder.md R140 to R142). -/

namespace Sys2Proof.Machine

open Sys2Proof

/-- `Advance(style, s)` on the old position (40_step_fsm.md R83). -/
def advance (m : PhaseWidth) (y : Style) (s : Nat) : Nat :=
  match y with
  | .single => if octantOdd m s then m.val / 2 else m.val
  | .double => if octantOdd m s then m.val else m.val / 2
  | .interleave => m.val / 2
  | .microstep => 1

/-- `delta`: the advance, signed by direction (40_step_fsm.md R84). -/
def signedDelta (d : Direction) (mag : Nat) : Int :=
  match d with
  | .forward => (mag : Int)
  | .backward => -(mag : Int)

/-- `s' = (s + delta + 4·M) mod (4·M)` (40_step_fsm.md R85). -/
def wrapPosition (m : PhaseWidth) (s : Nat) (delta : Int) : Nat :=
  (((s : Int) + delta + 4 * m.val) % (4 * m.val)).toNat

/-- The new position of a command (40_step_fsm.md R81 to R85). -/
def newPosition (m : PhaseWidth) (d : Direction) (y : Style) (s : Nat) : Nat :=
  wrapPosition m s (signedDelta d (advance m y s))

/-- `MemRead(CURVE, i, 1)` (00_scope.md R12); `none` outside the table. -/
def curveRead (c : EngineConfig) (i : Nat) : Option Magnitude := c.curve[i]?

/-- Two curve reads, for `magnitudeA` and `magnitudeB`. -/
def curvePair (c : EngineConfig) (i j : Nat) : Option (Magnitude × Magnitude) :=
  match curveRead c i, curveRead c j with
  | some a, some b => some (a, b)
  | _, _ => none

/-- `CurveLookup(s')`, the four quadrant rows of 41_curve_lut.md R125; `none` when an index lies outside the table
or the position outside the cycle, which R127 excludes. -/
def curveLookup (c : EngineConfig) (s : Nat) : Option (Magnitude × Magnitude) :=
  let m := c.m.val
  if s < m then curvePair c (m - s) s
  else if s < 2 * m then curvePair c (s - m) (2 * m - s)
  else if s < 3 * m then curvePair c (3 * m - s) (s - 2 * m)
  else if s < 4 * m then curvePair c (s - 3 * m) (4 * m - s)
  else none

/-- The magnitude pair of a style at the new position (41_curve_lut.md R124, R125). -/
def magnitudes (c : EngineConfig) (y : Style) (s : Nat) : Option (Magnitude × Magnitude) :=
  match y with
  | .single => some (Config.full, Config.full)
  | .double => some (Config.full, Config.full)
  | .interleave => some (Config.full, Config.full)
  | .microstep => curveLookup c s

/-- `duty = magnitude × 16` in 12 bits (41_curve_lut.md R126, 40_step_fsm.md R80). -/
def scaleDuty (a : Magnitude) : Duty := a.setWidth 12 * BitVec.ofNat 12 Config.dutyScale

/-- `OCT_TABLE` (42_latch_encoder.md R141). -/
def octTable : List Mask := [0x1#4, 0x3#4, 0x2#4, 0x6#4, 0x4#4, 0xC#4, 0x8#4, 0x9#4]

/-- `QUAD_TABLE` (42_latch_encoder.md R142). -/
def quadTable : List Mask := [0x3#4, 0x6#4, 0xC#4, 0x9#4]

/-- `OctMask(s') = OCT_TABLE[Octant(s') mod 8]` (42_latch_encoder.md R141). -/
def octMask (m : PhaseWidth) (s : Nat) : Option Mask := octTable[octant m s % 8]?

/-- `QuadMask(s') = QUAD_TABLE[Quadrant(s')]` (42_latch_encoder.md R142). -/
def quadMask (m : PhaseWidth) (s : Nat) : Option Mask := quadTable[quadrant m s]?

/-- The mask of a style at the new position (42_latch_encoder.md R140). -/
def coilMask (m : PhaseWidth) (y : Style) (s : Nat) : Option Mask :=
  match y with
  | .single => octMask m s
  | .double => octMask m s
  | .interleave => octMask m s
  | .microstep => quadMask m s

/-- What a command of style `y` latches at the new position `s` (40_step_fsm.md R80); `none` only where a table is
read outside its range. -/
def drive (c : EngineConfig) (y : Style) (s : Nat) : Option Latches :=
  match magnitudes c y s, coilMask c.m y s with
  | some (a, b), some mask => some { a := scaleDuty a, b := scaleDuty b, mask := mask }
  | _, _ => none

end Sys2Proof.Machine
end

