-- ==== Sys2Proof/Machine/Ops.lean ====
section
/-! DEFINITION. The engine's shared operations: accepting a command (40_step_fsm.md R80), the six sink commands and
their progress (43_actuation_sink.md R161 to R165), the sink fault (60_exceptions.md R183) and the responses
(30_encoding.md R65). -/

namespace Sys2Proof.Machine

open Sys2Proof

/-- The OK response: `{00, zext_6(pos)}` (30_encoding.md R65). -/
def respOk (p : PosReg) : RespWord := 0b00#2 ++ p

/-- The fault response: `{10, zext_6(k)}` (30_encoding.md R65, 60_exceptions.md R183(f)). -/
def respSinkFault (k : Fin 6) : RespWord := 0b10#2 ++ BitVec.ofNat 6 k.val

/-- `status` of a response (30_encoding.md R65). -/
def respStatus (r : RespWord) : BitVec 2 := r.extractLsb' 6 2

/-- `value` of a response (30_encoding.md R65). -/
def respValue (r : RespWord) : BitVec 6 := r.extractLsb' 0 6

/-- What the accept of a command writes (40_step_fsm.md R80): the new position, the latches, `emit_idx <- 0`,
`busy <- 1`. -/
def latchStep (p : Nat) (l : Latches) (s : State) : State :=
  { s with pos := BitVec.ofNat 6 p, lat := some l, emitIdx := 0, busy := true }

/-- Accept of a command (40_step_fsm.md R80 to R85), one indivisible transition. A command presented while busy is
held, and one presented to a faulted engine is never accepted: the state stays as it is (70_reset_and_hazards.md R205,
60_exceptions.md R184; log entry 9). -/
def accept (d : Direction) (y : Style) (s : State) : Host.Outcome State Fault Refusal :=
  if cmdReady s then
    match drive s.cfg y (newPosition s.cfg.m d y s.pos.toNat) with
    | some l => .next (latchStep (newPosition s.cfg.m d y s.pos.toNat) l s)
    | none => .refused .tableIndexOutOfRange
  else .next s

/-- The channel a sink command addresses (43_actuation_sink.md R161). -/
def SinkCmd.chan : SinkCmd → Channel
  | .analogDuty c _ => c
  | .digitalPin c _ => c

/-- The sink command word `{kind, chan, value}` (43_actuation_sink.md R161). -/
def SinkCmd.word : SinkCmd → SinkWord
  | .analogDuty c v => 0#1 ++ c ++ v
  | .digitalPin c b => 1#1 ++ c ++ (0#11 ++ BitVec.ofBool b)

/-- The sink command a word names; `none` for a pin word with a bit of `value[11:1]` set, which the engine never
issues (43_actuation_sink.md R161). -/
def decodeSinkWord (w : SinkWord) : Option SinkCmd :=
  if w.getLsbD 16 then
    if (w.extractLsb' 1 11).toNat = 0 then some (.digitalPin (w.extractLsb' 12 4) (w.getLsbD 0)) else none
  else some (.analogDuty (w.extractLsb' 12 4) (w.extractLsb' 0 12))

/-- The effect of a completed sink command on the channels (43_actuation_sink.md R163). -/
def SinkCmd.effect (c : SinkCmd) (m : Memory) : Memory :=
  match c with
  | .analogDuty ch v => setAnalogDuty m ch v.toNat
  | .digitalPin ch b => setDigitalPin m ch b

/-- The six sink commands of a step, by index (43_actuation_sink.md R162, 42_latch_encoder.md R143). -/
def sinkCommand (ch : ChannelMap) (l : Latches) : Fin 6 → SinkCmd
  | 0 => .analogDuty ch.chA l.a
  | 1 => .analogDuty ch.chB l.b
  | 2 => .digitalPin ch.chPin0 (l.mask.getLsbD 0)
  | 3 => .digitalPin ch.chPin1 (l.mask.getLsbD 1)
  | 4 => .digitalPin ch.chPin2 (l.mask.getLsbD 2)
  | 5 => .digitalPin ch.chPin3 (l.mask.getLsbD 3)

/-- The sink command on the sink channel of a busy engine and its index: command `emit_idx`
(43_actuation_sink.md R165). Its latches are read here alone; unwritten ones hold no value (10_state.md R28), and reading
them is a fault (93 U12). -/
def outstanding (s : State) : Except Fault (Fin 6 × SinkCmd) :=
  if h : s.emitIdx.val < 6 then
    match s.lat with
    | some l => .ok (⟨s.emitIdx.val, h⟩, sinkCommand s.cfg.channels l ⟨s.emitIdx.val, h⟩)
    | none => .error .unwrittenLatch
  else .error .noCommandOutstanding

/-- `snk_valid` and `snk_word` (43_actuation_sink.md R160): the word the sink sees, if any. -/
def snkWord (s : State) : Option SinkWord :=
  if s.busy then
    match outstanding s with
    | .ok (_, c) => some c.word
    | .error _ => none
  else none

/-- Completion of the step (40_step_fsm.md R86): busy is cleared and the OK response sent. -/
def completeStep (s : State) : State :=
  { s with busy := false, responses := s.responses ++ [respOk s.pos] }

/-- Sink command `k`, which is `c`, has taken effect: `emit_idx <- k + 1` (43_actuation_sink.md R164, R165). -/
def advanceEmission (k : Fin 6) (c : SinkCmd) (s : State) : State :=
  { s with
    sink := c.effect s.sink, emitIdx := k.succ, sinkTrace := s.sinkTrace ++ [(c.word, .done)] }

/-- Sink command `k`, which is `c`, ends with `done`; the sixth completes the step (43_actuation_sink.md R165). -/
def sinkDone (k : Fin 6) (c : SinkCmd) (s : State) : State :=
  if k.val = 5 then completeStep (advanceEmission k c s) else advanceEmission k c s

/-- THE FAULT ENTRY: sink command `k`, which is `c`, ends with `err` (60_exceptions.md R183 (a) to (g)). `pos` and
`emit_idx` stay; the channel of command `k` takes a free value (log entry 5); the fault is set, the response sent and
busy cleared. There is no return from it: the block has no trap return (60_exceptions.md R189), only a new
construction makes an engine that accepts again (R184). -/
def raiseSinkFault (k : Fin 6) (c : SinkCmd) (s : State) : State :=
  { s with
    sink := Memory.write s.sink c.chan.toNat (Config.freeChannel s.freeDraws),
    freeDraws := s.freeDraws + 1,
    sinkTrace := s.sinkTrace ++ [(c.word, .err)],
    fault := .sinkFault k,
    responses := s.responses ++ [respSinkFault k],
    busy := false }

/-- The sink ends the outstanding command, with `done` or `err` (43_actuation_sink.md R164, R165). -/
def endCommand (e : SinkEnding) (s : State) : Host.Outcome State Fault Refusal :=
  match outstanding s with
  | .ok (k, c) =>
    match e with
    | .done => .next (sinkDone k c s)
    | .err => .next (raiseSinkFault k c s)
  | .error f => .fault f

/-- A busy engine: it waits for the sink's answer, without bound (43_actuation_sink.md R164; log entries 6, 10).
The command the host presents meanwhile stays presented (70_reset_and_hazards.md R205). -/
def sinkTurn (s : State) : Host.Outcome State Fault Refusal :=
  match s.sinkIn with
  | [] => .next s
  | .wait :: rest => .next { s with sinkIn := rest }
  | .done :: rest => endCommand .done { s with sinkIn := rest }
  | .err :: rest => endCommand .err { s with sinkIn := rest }

/-- An idle engine to which no word is presented: it changes nothing until the next command (60_exceptions.md R197);
a pause of the host passes. A faulted engine stays as it is (R184; log entry 10). -/
def idleTurn (s : State) : Host.Outcome State Fault Refusal :=
  if cmdReady s then
    match s.hostIn with
    | .pause :: rest => .next { s with hostIn := rest }
    | _ => .next s
  else .next s

/-- The transition of a state in which no command is taken. -/
def otherTurn (s : State) : Host.Outcome State Fault Refusal :=
  if s.busy then sinkTurn s else idleTurn s

/-- The word the engine takes in this step: the one presented, when `cmd_ready = 1` (43_actuation_sink.md R160). -/
def takenWord (s : State) : Option Byte :=
  if cmdReady s then
    match s.hostIn with
    | .present b :: _ => some b
    | _ => none
  else none

/-- The state after the command channel's transfer: the presented word is gone. -/
def dropWord (s : State) : State := { s with hostIn := s.hostIn.tail }

/-- The stop for a transported word that names no command (30_encoding.md R64; log entry 11). -/
def refuseWord (e : DecodeError) : Host.Outcome State Fault Refusal :=
  match e with
  | .wideCommandWord b => .refused (.wideCommandWord b)

/-- The host presents the byte `b` next, before whatever it would have done. -/
def presentByte (b : Byte) (s : State) : State := { s with hostIn := .present b :: s.hostIn }

end Sys2Proof.Machine
end

