-- ==== Sys2Proof/Machine/Construct.lean ====
section
/-! DEFINITION. Construction, the block's only reset, and the launch of an engine (70_reset_and_hazards.md R200, R202, R204; 60_exceptions.md R180,
R181). -/

namespace Sys2Proof.Machine

open Sys2Proof

/-- `construct(M, CURVE, channels)` over a sink that holds `sink` already, which it leaves as it is
(70_reset_and_hazards.md R200, 60_exceptions.md R180). `M` is the only check the engine makes; a table or a channel
map that breaks R121 or R9 is refused by the model (R181; log entry 19). -/
def construct (a : ConstructionArgs) (sink : Memory) : Host.Outcome State Fault Refusal :=
  match PhaseWidth.ofNat? a.m with
  | none => .fault (.configurationError a.m)
  | some m =>
    if curveOk a.m a.curve then
      if channelsOk a then .next (State.constructed (a.config m) sink)
      else .refused .channelMapPremise
    else .refused .curveTablePremise

/-- The launch of an engine (70_reset_and_hazards.md R204): construction over a sink that is ready on the channels
`ready`. The engine does not look at the sink, so a construction that fails fails as it is; one that succeeds over a sink
that is not ready on the six channels is refused by the model, like the other premises (log entry 24). -/
def launch (a : ConstructionArgs) (sink : Memory) (ready : List Nat) : Host.Outcome State Fault Refusal :=
  match construct a sink with
  | .next t => if sinkReadyOn a ready then .next t else .refused .sinkReadyPremise
  | .fault f => .fault f
  | .refused r => .refused r

/-- The code construction reports (60_exceptions.md R185): 0 for none, 1 for `CONFIGURATION_ERROR`; no code for a
premise the model refuses. -/
def constructionCode : Host.Outcome State Fault Refusal → Option Nat
  | .next _ => some 0
  | .fault (.configurationError _) => some 1
  | .fault .unwrittenLatch => none
  | .fault .noCommandOutstanding => none
  | .refused _ => none

end Sys2Proof.Machine
end

