-- ==== Sys2Proof/Machine/Double.lean ====
section
/-! DEFINITION. The meanings of the two Double commands (40_step_fsm.md R92, R93). -/

namespace Sys2Proof.Machine

open Sys2Proof

/-- `STEP F, DOUBLE`, Forward dual-coil full step (40_step_fsm.md R92): its accept; the emission follows (R80). -/
def execStepFDouble (s : State) : Host.Outcome State Fault Refusal := accept .forward .double s

/-- `STEP B, DOUBLE`, Backward dual-coil full step (40_step_fsm.md R93): its accept; the emission follows (R80). -/
def execStepBDouble (s : State) : Host.Outcome State Fault Refusal := accept .backward .double s

end Sys2Proof.Machine
end

