-- ==== Sys2Proof/Machine/Interleave.lean ====
section
/-! DEFINITION. The meanings of the two Interleave commands (40_step_fsm.md R94, R95). -/

namespace Sys2Proof.Machine

open Sys2Proof

/-- `STEP F, INTERLEAVE`, Forward half step (40_step_fsm.md R94): its accept; the emission follows (R80). -/
def execStepFInterleave (s : State) : Host.Outcome State Fault Refusal := accept .forward .interleave s

/-- `STEP B, INTERLEAVE`, Backward half step (40_step_fsm.md R95): its accept; the emission follows (R80). -/
def execStepBInterleave (s : State) : Host.Outcome State Fault Refusal := accept .backward .interleave s

end Sys2Proof.Machine
end

