-- ==== Sys2Proof/Machine/Microstep.lean ====
section
/-! DEFINITION. The meanings of the two Microstep commands (40_step_fsm.md R96, R97). -/

namespace Sys2Proof.Machine

open Sys2Proof

/-- `STEP F, MICROSTEP`, Forward microstep (40_step_fsm.md R96): its accept; the emission follows (R80). -/
def execStepFMicrostep (s : State) : Host.Outcome State Fault Refusal := accept .forward .microstep s

/-- `STEP B, MICROSTEP`, Backward microstep (40_step_fsm.md R97): its accept; the emission follows (R80). -/
def execStepBMicrostep (s : State) : Host.Outcome State Fault Refusal := accept .backward .microstep s

end Sys2Proof.Machine
end

