-- ==== Sys2Proof/Machine/Single.lean ====
section
/-! DEFINITION. The meanings of the two Single commands (40_step_fsm.md R90, R91). -/

namespace Sys2Proof.Machine

open Sys2Proof

/-- `STEP F, SINGLE`, Forward single-coil full step (40_step_fsm.md R90): its accept; the emission follows (R80). -/
def execStepFSingle (s : State) : Host.Outcome State Fault Refusal := accept .forward .single s

/-- `STEP B, SINGLE`, Backward single-coil full step (40_step_fsm.md R91): its accept; the emission follows (R80). -/
def execStepBSingle (s : State) : Host.Outcome State Fault Refusal := accept .backward .single s

end Sys2Proof.Machine
end

