-- ==== Sys2Proof/Machine/Dispatch.lean ====
section
/-! DEFINITION. One arm per command. -/

namespace Sys2Proof.Machine

open Sys2Proof

def exec (i : Instr) (s : State) : Host.Outcome State Fault Refusal :=
  match i with
  | .stepFSingle => Sys2Proof.Machine.execStepFSingle s
  | .stepBSingle => Sys2Proof.Machine.execStepBSingle s
  | .stepFDouble => Sys2Proof.Machine.execStepFDouble s
  | .stepBDouble => Sys2Proof.Machine.execStepBDouble s
  | .stepFInterleave => Sys2Proof.Machine.execStepFInterleave s
  | .stepBInterleave => Sys2Proof.Machine.execStepBInterleave s
  | .stepFMicrostep => Sys2Proof.Machine.execStepFMicrostep s
  | .stepBMicrostep => Sys2Proof.Machine.execStepBMicrostep s

end Sys2Proof.Machine
end

