-- ==== Sys2Proof/Machine/Step.lean ====
section
/-! DEFINITION. One transition of the machine: the accept of the presented command, or one answer of the sink, or a
step in which nothing happens (40_step_fsm.md R80, 43_actuation_sink.md R165; log entries 8, 10). -/

namespace Sys2Proof.Machine

open Sys2Proof

/-- One transition. A word is taken only when `cmd_ready = 1`; then its command is accepted. Otherwise the sink, if
the engine is busy, takes its turn. -/
def step (s : State) : Host.Outcome State Fault Refusal :=
  match takenWord s with
  | some b =>
    match decode b with
    | .ok i => exec i (dropWord s)
    | .error e => refuseWord e
  | none => otherTurn s

/-- The word `w` of `nbits` bits, presented by the host's transport as its next command: the place `step` takes its
next command from (log entry 7). -/
def State.withFetchWord (s : State) (nbits w : Nat) : State := presentByte (tableByte nbits w) s

end Sys2Proof.Machine
end

