-- ==== Sys2Proof/Machine/Assembler.lean ====
section
/-! DEFINITION. The assembly text of commands and programs (30_encoding.md R66, R67), over lists of characters. -/

namespace Sys2Proof.Machine

open Sys2Proof

/-- A token of a line: a word in capitals, or one of the marks `,` `(` `)` `.`. -/
inductive Token where
  | word (cs : List Char)
  | mark (c : Char)
deriving DecidableEq, Repr

/-- The word read so far, as a token, if it has a letter. -/
def flushWord (acc : List Char) : List Token := if acc = [] then [] else [.word acc]

/-- The tokens of a line. Case does not matter, `;` starts a comment (30_encoding.md R66); white space separates words
(log entry 17). -/
def tokenize : List Char → List Char → Option (List Token)
  | acc, [] => some (flushWord acc)
  | acc, c :: cs =>
    if c = ';' then some (flushWord acc)
    else if c = ' ' ∨ c = '\t' ∨ c = '\r' then (tokenize [] cs).map (flushWord acc ++ ·)
    else if c = ',' ∨ c = '(' ∨ c = ')' ∨ c = '.' then
      (tokenize [] cs).map fun ts => flushWord acc ++ .mark c :: ts
    else if c.isAlpha then tokenize (acc ++ [c.toUpper]) cs
    else none

/-- `<dir>` (30_encoding.md R66). -/
def parseDirection (w : List Char) : Option Direction :=
  if w = ['F'] ∨ w = ['F', 'O', 'R', 'W', 'A', 'R', 'D'] then some .forward
  else if w = ['B'] ∨ w = ['B', 'A', 'C', 'K', 'W', 'A', 'R', 'D'] then some .backward
  else none

/-- `<style>` (30_encoding.md R66). -/
def parseStyle (w : List Char) : Option Style :=
  if w = ['S', 'I', 'N', 'G', 'L', 'E'] then some .single
  else if w = ['D', 'O', 'U', 'B', 'L', 'E'] then some .double
  else if w = ['I', 'N', 'T', 'E', 'R', 'L', 'E', 'A', 'V', 'E'] then some .interleave
  else if w = ['M', 'I', 'C', 'R', 'O', 'S', 'T', 'E', 'P'] then some .microstep
  else none

/-- The command of a `STEP` with a direction word and a style word. -/
def parseFields (op d y : List Char) : Option Instr :=
  if op = ['S', 'T', 'E', 'P'] then
    match parseDirection d, parseStyle y with
    | some dir, some sty => some (Instr.ofFields dir sty)
    | _, _ => none
  else none

/-- One line of a program (30_encoding.md R66): `STEP <dir>, <style>`, the source's `step(<dir>, <style>)`, or the
dotted mnemonic of the opcode table. `some none` is a line with no command; `none` a line that is refused, as every
pseudo-instruction is (R67). DESIGN CHOICE (log entry 25): the call form and the dotted mnemonic take either word for the
direction, in any case; R66 gives `step(Forward, Single)` and `STEP.F.SINGLE` only. DESIGN CHOICE (log entry 26): a line that is empty,
blank or only a comment is accepted and names no command; R66 is silent on it. -/
def parseLine (line : List Char) : Option (Option Instr) :=
  match tokenize [] line with
  | some [] => some none
  | some [.word op, .word d, .mark ',', .word y] => (parseFields op d y).map some
  | some [.word op, .mark '(', .word d, .mark ',', .word y, .mark ')'] => (parseFields op d y).map some
  | some [.word op, .mark '.', .word d, .mark '.', .word y] => (parseFields op d y).map some
  | _ => none

/-- A program: one command a line, in order (30_encoding.md R66). DESIGN CHOICE (log entry 26): a line with no command gives
no word, and one refused line refuses the program (`none`). -/
def assemble : List (List Char) → Option (List CmdWord)
  | [] => some []
  | line :: rest =>
    match parseLine line, assemble rest with
    | some (some i), some ws => some (encode i :: ws)
    | some none, some ws => some ws
    | _, _ => none

/-- `F` or `B` (30_encoding.md R66). -/
def directionLetter : Direction → List Char
  | .forward => ['F']
  | .backward => ['B']

/-- The style's word (30_encoding.md R66). -/
def styleLetters : Style → List Char
  | .single => ['S', 'I', 'N', 'G', 'L', 'E']
  | .double => ['D', 'O', 'U', 'B', 'L', 'E']
  | .interleave => ['I', 'N', 'T', 'E', 'R', 'L', 'E', 'A', 'V', 'E']
  | .microstep => ['M', 'I', 'C', 'R', 'O', 'S', 'T', 'E', 'P']

/-- `F` or `FORWARD`, `B` or `BACKWARD` (30_encoding.md R66). -/
def directionWords : Direction → List (List Char)
  | .forward => [directionLetter .forward, ['F', 'O', 'R', 'W', 'A', 'R', 'D']]
  | .backward => [directionLetter .backward, ['B', 'A', 'C', 'K', 'W', 'A', 'R', 'D']]

/-- The line `STEP <dir>, <style>` of a direction word and a style word (30_encoding.md R66). -/
def stepLine (dir sty : List Char) : List Char := ['S', 'T', 'E', 'P', ' '] ++ dir ++ [',', ' '] ++ sty

/-- The source's call form `step(<dir>, <style>)` of a direction word and a style word (30_encoding.md R66; the short words
are log entry 25's DESIGN CHOICE). -/
def callLine (dir sty : List Char) : List Char := ['s', 't', 'e', 'p', '('] ++ dir ++ [',', ' '] ++ sty ++ [')']

/-- The assembly line of a command, `STEP <dir>, <style>` (30_encoding.md R63, R66). -/
def listing (i : Instr) : List Char :=
  stepLine (directionLetter i.direction) (styleLetters i.style)

/-- The dotted mnemonic of the opcode table (30_encoding.md R66). -/
def dottedListing (i : Instr) : List Char :=
  ['S', 'T', 'E', 'P', '.'] ++ directionLetter i.direction ++ ['.'] ++ styleLetters i.style

end Sys2Proof.Machine
end

