-- ==== Sys2Proof/Safety.lean ====
section
/-! DEFINITION. The terms the claims use: the invariant of a constructed engine, the content a sink command sets, the
end of a run (70_reset_and_hazards.md R207), and schedules of a sink that answers every command. -/

namespace Sys2Proof.Machine

open Sys2Proof

/-- `n` transitions of the machine behind the host's interface, ending at the first fault or refusal. -/
def runSteps (n : Nat) (s : State) : Host.Outcome State Fault Refusal := Host.Core.run Sys2Proof.core n s

/-- What a completed sink command leaves on its channel (43_actuation_sink.md R163). -/
def SinkCmd.content : SinkCmd → ChanState
  | .analogDuty _ v => .duty v
  | .digitalPin _ b => .pin b

/-- The six channels of a map, in the order of 43_actuation_sink.md R162. -/
def channelNumbers (ch : ChannelMap) : List Nat :=
  [ch.chA.toNat, ch.chB.toNat, ch.chPin0.toNat, ch.chPin1.toNat, ch.chPin2.toNat, ch.chPin3.toNat]

/-- The first `n` sink commands of the latched step have taken effect and their channels still hold it
(60_exceptions.md R183(b), 43_actuation_sink.md R166). -/
def Delivered (s : State) (l : Latches) (n : Nat) : Prop :=
  ∀ k : Fin 6, k.val < n →
    Memory.read s.sink (sinkCommand s.cfg.channels l k).chan.toNat = (sinkCommand s.cfg.channels l k).content

/-- Every response sent is an OK response, but for the last one of a faulted engine, which names its fault
(30_encoding.md R65, 60_exceptions.md R183, R184). -/
def ResponsesMatch (s : State) : Prop :=
  match s.fault with
  | .none => ∀ r ∈ s.responses, respStatus r = 0b00#2
  | .sinkFault k => ∃ before, s.responses = before ++ [respSinkFault k] ∧ ∀ r ∈ before, respStatus r = 0b00#2

/-- The invariant of a constructed engine and the sink it drives. -/
structure EngineInv (s : State) : Prop where
  /-- Table and channel map meet R121 and R9. -/
  cfgLegal : s.cfg.legal = true
  /-- `0 ≤ pos < 4·M` (10_state.md R22). -/
  posInCycle : s.pos.toNat < s.cfg.m.cycle
  /-- The channel list keeps its canonical form. -/
  sinkCanonical : Memory.wf s.sink
  /-- While busy a sink command is outstanding (10_state.md R27, R28). -/
  busyOutstanding : s.busy = true → s.emitIdx.val < 6 ∧ s.lat.isSome = true ∧ s.fault = .none
  /-- A faulted engine keeps the index of the failed command (60_exceptions.md R183(g)). -/
  faultIndex : ∀ k : Fin 6, s.fault = .sinkFault k → s.emitIdx = k.castSucc
  /-- Before the first step no sink command has completed (10_state.md R28). -/
  unlatchedStart : s.lat = none → s.emitIdx = 0
  /-- The latches are those of some style at the present position (40_step_fsm.md R80). -/
  latchesMatch : ∀ l, s.lat = some l → ∃ y, drive s.cfg y s.pos.toNat = some l
  /-- The commands counted by `emit_idx` have taken effect. -/
  delivered : ∀ l, s.lat = some l → Delivered s l s.emitIdx.val
  /-- The responses tell the fault register. -/
  responsesMatch : ResponsesMatch s

/-- What a launch takes for granted, by name (70_reset_and_hazards.md R204; log entry 24): the sink is ready on the six
configured channels, and table and channel map are those the engine does not check. -/
structure LaunchPremises (a : ConstructionArgs) (ready : List Nat) : Prop where
  /-- R204 (1). -/
  sinkReady : ∀ c ∈ a.channelList, c ∈ ready
  /-- R204 (2), the table (41_curve_lut.md R121). -/
  tableLegal : curveOk a.m a.curve = true
  /-- R204 (2), the channel map (00_scope.md R9). -/
  channelsLegal : channelsOk a = true

/-- The successful end of a run (70_reset_and_hazards.md R207): every command accepted and answered OK, `busy = 0`,
`fault = NONE`. -/
def SuccessfulEnd (s : State) : Prop :=
  s.busy = false ∧ s.fault = .none ∧ (∀ b, HostEvent.present b ∉ s.hostIn) ∧
    ∀ r ∈ s.responses, respStatus r = 0b00#2

/-- A sink that answers `done` to one command after another, each after the given number of steps without an answer
("any finite delay", 70_reset_and_hazards.md R210). -/
def doneAfter : List Nat → List SinkAnswer
  | [] => []
  | d :: ds => List.replicate d .wait ++ .done :: doneAfter ds

/-- How many steps such a schedule takes. -/
def stepsOf : List Nat → Nat
  | [] => 0
  | d :: ds => d + 1 + stepsOf ds

end Sys2Proof.Machine
end

