-- ==== Sys2Proof/Certificates/Slice0/Obligations.lean ====
section
/-! DEFINITION. The statements for the provers. Each docstring names the rule of spec/ it comes from. -/

open Sys2Proof Sys2Proof.Machine

-- ENCODING

/-- 30_encoding.md R63: the opcode map, word by word. -/
def Obligations.OpcodeMapDecodes : Prop :=
  decodeWord 0b000#3 = .stepFSingle ∧ decodeWord 0b001#3 = .stepBSingle ∧
  decodeWord 0b010#3 = .stepFDouble ∧ decodeWord 0b011#3 = .stepBDouble ∧
  decodeWord 0b100#3 = .stepFInterleave ∧ decodeWord 0b101#3 = .stepBInterleave ∧
  decodeWord 0b110#3 = .stepFMicrostep ∧ decodeWord 0b111#3 = .stepBMicrostep

/-- 30_encoding.md R61: `Direction(cmd)` from `cmd[0]` and `Style(cmd)` from `cmd[2:1]`. -/
def Obligations.FieldsDecodeDirectionAndStyle : Prop :=
  ∀ cmd : CmdWord,
    (decodeWord cmd).direction = (if cmd.getLsbD 0 = false then Direction.forward else Direction.backward) ∧
    [Style.single, Style.double, Style.interleave, Style.microstep][(cmd.extractLsb' 1 2).toNat]? =
      some (decodeWord cmd).style

/-- Decode and encode agree, both ways, over words and over transported bytes. -/
def Obligations.DecodeAndEncodeAgree : Prop :=
  (∀ i : Instr, i.wellFormed = true → decodeWord (encode i) = i ∧ decode (encodeByte i) = .ok i) ∧
  (∀ cmd : CmdWord, encode (decodeWord cmd) = cmd) ∧
  (∀ (b : Byte) (i : Instr), decode b = .ok i → encodeByte i = b)

/-- 30_encoding.md R64: every 3-bit word is a command; a wider word is refused by the transport and never reaches the
engine. That the refusal ENDS the step of a ready engine, with the stop `wideCommandWord` (third clause), is the model's
choice, log entry 11 (DESIGN CHOICE): R64 says only that the transport refuses the word and does not pass it on. -/
def Obligations.WideWordsAreRefused : Prop :=
  (∀ cmd : CmdWord, ∃ i, decode (cmd.setWidth 8) = .ok i) ∧
  (∀ b : Byte, 8 ≤ b.toNat → ∀ i, decode b ≠ .ok i) ∧
  ∀ (s : State) (b : Byte) (rest : List HostEvent), cmdReady s = true → s.hostIn = .present b :: rest →
    8 ≤ b.toNat → step s = .refused (.wideCommandWord b)

/-- 30_encoding.md R66: `STEP <dir>, <style>` and the source's call form `step(<dir>, <style>)`, each with the short and
the long word for the direction, and the dotted mnemonic name the same command; case does not matter; `;` starts a comment;
a program is one command per line, in order. Where blanks stand in a line is the model's choice, log entry 17 (DESIGN
CHOICE). That the call form takes the short direction word as well, and that case does not matter in the call form and the
dotted mnemonic, is the model's choice, log entry 25 (DESIGN CHOICE): R66 gives `step(Forward, Single)` and `STEP.F.SINGLE`
only. That a line may name no command (nothing but blanks or a comment) is log entry 26 (DESIGN CHOICE). -/
def Obligations.AssemblyLinesNameTheirCommand : Prop :=
  (∀ i : Instr, ∀ d ∈ directionWords i.direction,
    parseLine (stepLine d (styleLetters i.style)) = some (some i) ∧
    parseLine (callLine d (styleLetters i.style)) = some (some i)) ∧
  (∀ i : Instr, parseLine (dottedListing i) = some (some i)) ∧
  (∀ line : List Char, parseLine (line.map Char.toLower) = parseLine line ∧
    parseLine (line.map Char.toUpper) = parseLine line) ∧
  (∀ line comment : List Char, parseLine (line ++ ';' :: comment) = parseLine line) ∧
  ∀ is : List Instr, assemble (is.map listing) = some (is.map encode)

-- THE STEP

/-- A step runs the decoded command: the presented word is taken and `exec` of its command is the step. -/
def Obligations.StepRunsDecodedCommand : Prop :=
  ∀ (s : State) (b : Byte) (i : Instr) (rest : List HostEvent),
    s.busy = false → s.fault = .none → s.hostIn = .present b :: rest → decode b = .ok i →
    step s = exec i { s with hostIn := rest }

/-- A table word placed for the next step runs as its command, in every state whose engine is ready. -/
def Obligations.PlacedWordRunsNext : Prop :=
  ∀ (s : State) (i : Instr), s.busy = false → s.fault = .none →
    decodeTableWord 8 (encode i).toNat = some i ∧ step (s.withFetchWord 8 (encode i).toNat) = exec i s

-- THE EIGHT COMMANDS: result, frame and completion in one equation

/-- 40_step_fsm.md R90: `STEP F, SINGLE`. -/
def Obligations.StepForwardSingleResult : Prop :=
  ∀ s : State, s.busy = false → s.fault = .none →
    let M := s.cfg.m.val
    let mag := if s.pos.toNat / (M / 2) % 2 = 1 then M / 2 else M
    let s' := (s.pos.toNat + mag) % (4 * M)
    ∃ mask : Mask, [0x1#4, 0x3#4, 0x2#4, 0x6#4, 0x4#4, 0xC#4, 0x8#4, 0x9#4][s' / (M / 2)]? = some mask ∧
      exec .stepFSingle s = .next { s with
        pos := BitVec.ofNat 6 s', lat := some ⟨4080#12, 4080#12, mask⟩, emitIdx := 0, busy := true }

/-- 40_step_fsm.md R91: `STEP B, SINGLE`. -/
def Obligations.StepBackwardSingleResult : Prop :=
  ∀ s : State, s.busy = false → s.fault = .none →
    let M := s.cfg.m.val
    let mag := if s.pos.toNat / (M / 2) % 2 = 1 then M / 2 else M
    let s' := (s.pos.toNat + 4 * M - mag) % (4 * M)
    ∃ mask : Mask, [0x1#4, 0x3#4, 0x2#4, 0x6#4, 0x4#4, 0xC#4, 0x8#4, 0x9#4][s' / (M / 2)]? = some mask ∧
      exec .stepBSingle s = .next { s with
        pos := BitVec.ofNat 6 s', lat := some ⟨4080#12, 4080#12, mask⟩, emitIdx := 0, busy := true }

/-- 40_step_fsm.md R92: `STEP F, DOUBLE`. -/
def Obligations.StepForwardDoubleResult : Prop :=
  ∀ s : State, s.busy = false → s.fault = .none →
    let M := s.cfg.m.val
    let mag := if s.pos.toNat / (M / 2) % 2 = 1 then M else M / 2
    let s' := (s.pos.toNat + mag) % (4 * M)
    ∃ mask : Mask, [0x1#4, 0x3#4, 0x2#4, 0x6#4, 0x4#4, 0xC#4, 0x8#4, 0x9#4][s' / (M / 2)]? = some mask ∧
      exec .stepFDouble s = .next { s with
        pos := BitVec.ofNat 6 s', lat := some ⟨4080#12, 4080#12, mask⟩, emitIdx := 0, busy := true }

/-- 40_step_fsm.md R93: `STEP B, DOUBLE`. -/
def Obligations.StepBackwardDoubleResult : Prop :=
  ∀ s : State, s.busy = false → s.fault = .none →
    let M := s.cfg.m.val
    let mag := if s.pos.toNat / (M / 2) % 2 = 1 then M else M / 2
    let s' := (s.pos.toNat + 4 * M - mag) % (4 * M)
    ∃ mask : Mask, [0x1#4, 0x3#4, 0x2#4, 0x6#4, 0x4#4, 0xC#4, 0x8#4, 0x9#4][s' / (M / 2)]? = some mask ∧
      exec .stepBDouble s = .next { s with
        pos := BitVec.ofNat 6 s', lat := some ⟨4080#12, 4080#12, mask⟩, emitIdx := 0, busy := true }

/-- 40_step_fsm.md R94: `STEP F, INTERLEAVE`. -/
def Obligations.StepForwardInterleaveResult : Prop :=
  ∀ s : State, s.busy = false → s.fault = .none →
    let M := s.cfg.m.val
    let s' := (s.pos.toNat + M / 2) % (4 * M)
    ∃ mask : Mask, [0x1#4, 0x3#4, 0x2#4, 0x6#4, 0x4#4, 0xC#4, 0x8#4, 0x9#4][s' / (M / 2)]? = some mask ∧
      exec .stepFInterleave s = .next { s with
        pos := BitVec.ofNat 6 s', lat := some ⟨4080#12, 4080#12, mask⟩, emitIdx := 0, busy := true }

/-- 40_step_fsm.md R95: `STEP B, INTERLEAVE`. -/
def Obligations.StepBackwardInterleaveResult : Prop :=
  ∀ s : State, s.busy = false → s.fault = .none →
    let M := s.cfg.m.val
    let s' := (s.pos.toNat + 4 * M - M / 2) % (4 * M)
    ∃ mask : Mask, [0x1#4, 0x3#4, 0x2#4, 0x6#4, 0x4#4, 0xC#4, 0x8#4, 0x9#4][s' / (M / 2)]? = some mask ∧
      exec .stepBInterleave s = .next { s with
        pos := BitVec.ofNat 6 s', lat := some ⟨4080#12, 4080#12, mask⟩, emitIdx := 0, busy := true }

/-- 40_step_fsm.md R96: `STEP F, MICROSTEP`, with the lookup in R125's offset form. -/
def Obligations.StepForwardMicrostepResult : Prop :=
  ∀ s : State, s.cfg.legal = true → s.busy = false → s.fault = .none →
    let M := s.cfg.m.val
    let s' := (s.pos.toNat + 1) % (4 * M)
    let q := s' / M
    let r := s' % M
    ∃ (a b : Magnitude) (mask : Mask),
      s.cfg.curve[if q % 2 = 0 then M - r else r]? = some a ∧
      s.cfg.curve[if q % 2 = 0 then r else M - r]? = some b ∧
      [0x3#4, 0x6#4, 0xC#4, 0x9#4][q]? = some mask ∧
      exec .stepFMicrostep s = .next { s with
        pos := BitVec.ofNat 6 s', lat := some ⟨a ++ 0#4, b ++ 0#4, mask⟩, emitIdx := 0, busy := true }

/-- 40_step_fsm.md R97: `STEP B, MICROSTEP`, with the lookup in R125's offset form. -/
def Obligations.StepBackwardMicrostepResult : Prop :=
  ∀ s : State, s.cfg.legal = true → s.busy = false → s.fault = .none →
    let M := s.cfg.m.val
    let s' := (s.pos.toNat + 4 * M - 1) % (4 * M)
    let q := s' / M
    let r := s' % M
    ∃ (a b : Magnitude) (mask : Mask),
      s.cfg.curve[if q % 2 = 0 then M - r else r]? = some a ∧
      s.cfg.curve[if q % 2 = 0 then r else M - r]? = some b ∧
      [0x3#4, 0x6#4, 0xC#4, 0x9#4][q]? = some mask ∧
      exec .stepBMicrostep s = .next { s with
        pos := BitVec.ofNat 6 s', lat := some ⟨a ++ 0#4, b ++ 0#4, mask⟩, emitIdx := 0, busy := true }

/-- THE FRAME of all eight commands: an accept writes `pos`, the latches, `emit_idx` and `busy`, and nothing else; every
sink channel reads as before. -/
def Obligations.AcceptFrame : Prop :=
  ∀ (i : Instr) (s t : State), exec i s = .next t →
    t.cfg = s.cfg ∧ t.fault = s.fault ∧ t.hostIn = s.hostIn ∧ t.sinkIn = s.sinkIn ∧ t.responses = s.responses ∧
    t.sinkTrace = s.sinkTrace ∧ t.freeDraws = s.freeDraws ∧
    ∀ c : Nat, Memory.read t.sink c = Memory.read s.sink c

/-- 60_exceptions.md R182: no command stops on its own arithmetic, lookup or encoding. -/
def Obligations.NoCommandStopsByItself : Prop :=
  (∀ cmd : CmdWord, ∃ i, decode (cmd.setWidth 8) = .ok i) ∧ ∀ (i : Instr) (s : State), EngineInv s → ∃ t, exec i s = .next t

/-- 41_curve_lut.md R124: Single, Double and Interleave commands never read the table. -/
def Obligations.OnlyMicrostepReadsTheCurve : Prop :=
  ∀ (i : Instr) (s t : State) (curve : List Magnitude), i.style ≠ .microstep → exec i s = .next t →
    exec i { s with cfg := { s.cfg with curve := curve } } = .next { t with cfg := { t.cfg with curve := curve } } ∧
    (cmdReady s = true → ∃ mask, t.lat = some ⟨255#8 ++ 0#4, 255#8 ++ 0#4, mask⟩)

/-- 10_state.md R32: no history; what a command writes depends on the configuration, the position and the command only. -/
def Obligations.CommandsKeepNoHistory : Prop :=
  ∀ (i : Instr) (s u t v : State), cmdReady s = true → cmdReady u = true → u.cfg = s.cfg → u.pos = s.pos →
    exec i s = .next t → exec i u = .next v →
    v.pos = t.pos ∧ v.lat = t.lat ∧ v.emitIdx = t.emitIdx ∧ v.busy = t.busy

-- THE TABLES AND THE POSITION LAWS

/-- 40_step_fsm.md R82: octant and quadrant are floor divisions, and bit slices of the position. -/
def Obligations.OctantsAreBitSlices : Prop :=
  (∀ (m : PhaseWidth) (s : Nat), s < 4 * m.val →
    octant m s = s / (m.val / 2) ∧ octant m s < 8 ∧ quadrant m s = s / m.val ∧ quadrant m s < 4) ∧
  (∀ p : PosReg,
    octant .m16 p.toNat = (p.extractLsb' 3 3).toNat ∧ octantOdd .m16 p.toNat = p.getLsbD 3 ∧
    quadrant .m16 p.toNat = (p.extractLsb' 4 2).toNat) ∧
  ∀ p : PosReg, p.toNat < 32 →
    octant .m8 p.toNat = (p.extractLsb' 2 3).toNat ∧ octantOdd .m8 p.toNat = p.getLsbD 2 ∧
    quadrant .m8 p.toNat = (p.extractLsb' 3 2).toNat

/-- 40_step_fsm.md R85: the new position is the low `W` bits of a two's-complement add. -/
def Obligations.WrapIsLowBitsOfTheAdd : Prop :=
  ∀ (m : PhaseWidth) (d : Direction) (y : Style) (s : Nat), s < 4 * m.val →
    newPosition m d y s = (BitVec.ofInt m.posBits ((s : Int) + signedDelta d (advance m y s))).toNat ∧
    0 ≤ (s : Int) + signedDelta d (advance m y s) + 4 * m.val

/-- 41_curve_lut.md R125 and R127: the four rows of the lookup, total on every position. -/
def Obligations.CurveLookupRows : Prop :=
  ∀ (c : EngineConfig) (s : Nat), c.legal = true → s < 4 * c.m.val →
    ∃ a b : Magnitude, curveLookup c s = some (a, b) ∧
      (s < c.m.val → c.curve[c.m.val - s]? = some a ∧ c.curve[s]? = some b) ∧
      (c.m.val ≤ s → s < 2 * c.m.val →
        c.curve[s - c.m.val]? = some a ∧ c.curve[2 * c.m.val - s]? = some b) ∧
      (2 * c.m.val ≤ s → s < 3 * c.m.val →
        c.curve[3 * c.m.val - s]? = some a ∧ c.curve[s - 2 * c.m.val]? = some b) ∧
      (3 * c.m.val ≤ s →
        c.curve[s - 3 * c.m.val]? = some a ∧ c.curve[4 * c.m.val - s]? = some b) ∧
      s % c.m.val = s % 2 ^ (c.m.posBits - 2) ∧
      (s / c.m.val % 2 = 0 → c.curve[c.m.val - s % c.m.val]? = some a ∧ c.curve[s % c.m.val]? = some b) ∧
      (s / c.m.val % 2 = 1 → c.curve[s % c.m.val]? = some a ∧ c.curve[c.m.val - s % c.m.val]? = some b)

/-- 41_curve_lut.md R128: at a quadrant boundary one magnitude is 0 and the other 255. -/
def Obligations.BoundaryMagnitudes : Prop :=
  ∀ c : EngineConfig, c.legal = true →
    curveLookup c 0 = some (255#8, 0#8) ∧ curveLookup c c.m.val = some (0#8, 255#8) ∧
    curveLookup c (2 * c.m.val) = some (255#8, 0#8) ∧ curveLookup c (3 * c.m.val) = some (0#8, 255#8)

/-- 41_curve_lut.md R129: equal magnitudes in the middle of each quadrant, and the slopes across quadrant 0. The last clause
(the middle entry of both default tables is 180) rests on the PRESUMED default tables, log entry 2: 41_curve_lut.md R123
takes them from general knowledge and asks that a proof name them as an assumption. -/
def Obligations.MidQuadrantAndSlopes : Prop :=
  (∀ c : EngineConfig, c.legal = true → ∃ v : Magnitude, c.curve[c.m.val / 2]? = some v ∧
    ∀ q : Nat, q < 4 → curveLookup c (q * c.m.val + c.m.val / 2) = some (v, v)) ∧
  (∀ (c : EngineConfig) (s : Nat) (a b a' b' : Magnitude), c.legal = true → s + 1 < c.m.val →
    curveLookup c s = some (a, b) → curveLookup c (s + 1) = some (a', b') → a'.toNat ≤ a.toNat ∧ b.toNat ≤ b'.toNat) ∧
  Config.defaultCurve16[8]? = some 180 ∧ Config.defaultCurve8[4]? = some 180

/-- 41_curve_lut.md R126: the duty is the magnitude times 16, its low four bits 0, at most 4080. -/
def Obligations.DutyScaling : Prop :=
  (∀ a : Magnitude, (scaleDuty a).toNat = a.toNat * 16 ∧ scaleDuty a = a ++ 0#4 ∧ (scaleDuty a).toNat ≤ 4080) ∧
  scaleDuty 255#8 = 4080#12

/-- 42_latch_encoder.md R144 (a) to (d), over the two tables. -/
def Obligations.MaskTableLaws : Prop :=
  (∀ q : Fin 4, quadTable[q.val]? = octTable[2 * q.val + 1]? ∧ quadTable[q.val]?.isSome = true) ∧
  (∀ o : Fin 8, ∃ k : Mask, octTable[o.val]? = some k ∧ k.cpop.toNat = (if o.val % 2 = 0 then 1 else 2)) ∧
  (∀ q : Fin 4, ∃ k : Mask, quadTable[q.val]? = some k ∧ k.cpop.toNat = 2) ∧
  (∀ o : Fin 8, ∃ k l : Mask, octTable[o.val]? = some k ∧ octTable[(o.val + 1) % 8]? = some l ∧
    (k ^^^ l).cpop.toNat = 1) ∧
  ∀ k : Mask, k ∈ octTable ∨ k ∈ quadTable →
    k ≠ 0x0#4 ∧ k ≠ 0xF#4 ∧ ¬(k.getLsbD 0 = true ∧ k.getLsbD 2 = true) ∧
      ¬(k.getLsbD 1 = true ∧ k.getLsbD 3 = true)

/-- 40_step_fsm.md R87: Single is attracted to the even octants and their single-coil masks, Double to the odd octants
and their dual-coil masks; each visits all four of its masks, Interleave all eight octants. -/
def Obligations.StyleAttractors : Prop :=
  (∀ (i : Instr) (s t : State), s.busy = false → s.fault = .none → exec i s = .next t →
    (i.style = .single → octant s.cfg.m t.pos.toNat % 2 = 0 ∧
      ∃ l, t.lat = some l ∧ l.mask ∈ [0x1#4, 0x2#4, 0x4#4, 0x8#4]) ∧
    (i.style = .double → octant s.cfg.m t.pos.toNat % 2 = 1 ∧
      ∃ l, t.lat = some l ∧ l.mask ∈ [0x3#4, 0x6#4, 0xC#4, 0x9#4])) ∧
  ∀ (m : PhaseWidth) (d : Direction) (s : Nat), s < 4 * m.val →
    (∀ k : Mask, k ∈ [0x1#4, 0x2#4, 0x4#4, 0x8#4] →
      ∃ n, 1 ≤ n ∧ n ≤ 4 ∧ octMask m ((newPosition m d .single)^[n] s) = some k) ∧
    (∀ k : Mask, k ∈ [0x3#4, 0x6#4, 0xC#4, 0x9#4] →
      ∃ n, 1 ≤ n ∧ n ≤ 4 ∧ octMask m ((newPosition m d .double)^[n] s) = some k) ∧
    ∀ o : Nat, o < 8 → ∃ n, 1 ≤ n ∧ n ≤ 8 ∧ octant m ((newPosition m d .interleave)^[n] s) = o

/-- 40_step_fsm.md R88: when a Backward step undoes a Forward step of the same style, and where it ends otherwise. -/
def Obligations.BackwardUndoesForward : Prop :=
  ∀ (y : Style) (s t u v : State), EngineInv s → cmdReady s = true → exec (Instr.ofFields .forward y) s = .next t →
    cmdReady u = true → u.cfg = s.cfg → u.pos = t.pos → exec (Instr.ofFields .backward y) u = .next v →
    (v.pos = s.pos ↔
      (y = .interleave ∨ y = .microstep ∨ (y = .single ∧ octant s.cfg.m s.pos.toNat % 2 = 0) ∨
        (y = .double ∧ octant s.cfg.m s.pos.toNat % 2 = 1))) ∧
    (v.pos ≠ s.pos → v.pos.toNat = (s.pos.toNat + 4 * s.cfg.m.val - s.cfg.m.val / 2) % (4 * s.cfg.m.val))

/-- 40_step_fsm.md R89: cycle closure of each style, and where it fails. -/
def Obligations.CycleClosure : Prop :=
  (∀ (m : PhaseWidth) (s n : Nat), s < 4 * m.val →
    ((newPosition m .forward .interleave)^[n] s = s ↔ 8 ∣ n) ∧
    ((newPosition m .forward .microstep)^[n] s = s ↔ 4 * m.val ∣ n) ∧
    (octant m s % 2 = 0 → ((newPosition m .forward .single)^[n] s = s ↔ 4 ∣ n)) ∧
    (octant m s % 2 = 1 → ((newPosition m .forward .double)^[n] s = s ↔ 4 ∣ n)) ∧
    (octant m s % 2 = 1 → 1 ≤ n → (newPosition m .forward .single)^[n] s ≠ s) ∧
    (octant m s % 2 = 0 → 1 ≤ n → (newPosition m .forward .double)^[n] s ≠ s)) ∧
  ∀ m : PhaseWidth, (newPosition m .forward .double)^[4 * m.val] 0 = 7 * m.val / 2

/-- 10_state.md R31: `pos_out` shows the position; for `M = 8` its top bit is 0. -/
def Obligations.PositionOutput : Prop :=
  ∀ s : State, EngineInv s → (posOut s).toNat = s.pos.toNat ∧ (s.cfg.m = .m8 → (posOut s).getLsbD 5 = false)

-- THE SINK

/-- 43_actuation_sink.md R161: the layout of a sink word; the engine issues no other word. -/
def Obligations.SinkWordLayout : Prop :=
  (∀ (c : Channel) (d : Duty),
    (SinkCmd.analogDuty c d).word.getLsbD 16 = false ∧ (SinkCmd.analogDuty c d).word.extractLsb' 12 4 = c ∧
    (SinkCmd.analogDuty c d).word.extractLsb' 0 12 = d) ∧
  (∀ (c : Channel) (b : Bool),
    (SinkCmd.digitalPin c b).word.getLsbD 16 = true ∧ (SinkCmd.digitalPin c b).word.extractLsb' 12 4 = c ∧
    (SinkCmd.digitalPin c b).word.getLsbD 0 = b ∧ (SinkCmd.digitalPin c b).word.extractLsb' 1 11 = 0#11) ∧
  (∀ c : SinkCmd, decodeSinkWord c.word = some c) ∧
  ∀ (s : State) (w : SinkWord), snkWord s = some w → ∃ c : SinkCmd, w = c.word

/-- 43_actuation_sink.md R163: the effect of the two sink operations, the clamp, and that the engine's duties never meet
it. -/
def Obligations.SinkEffects : Prop :=
  (∀ (m : Memory) (c : Channel) (d : Nat), Memory.wf m →
    Memory.read (setAnalogDuty m c d) c.toNat = (if d ≤ 4095 then .duty (BitVec.ofNat 12 d) else .fullyOn) ∧
    ∀ x : Nat, x ≠ c.toNat → Memory.read (setAnalogDuty m c d) x = Memory.read m x) ∧
  (∀ (m : Memory) (c : Channel) (b : Bool), Memory.wf m →
    Memory.read (setDigitalPin m c b) c.toNat = .pin b ∧
    ∀ x : Nat, x ≠ c.toNat → Memory.read (setDigitalPin m c b) x = Memory.read m x) ∧
  ∀ (s : State) (l : Latches), EngineInv s → s.lat = some l → l.a.toNat ≤ 4080 ∧ l.b.toNat ≤ 4080

/-- 20_memory.md R44: a repeated sink command with the same value leaves the channels as they are, to the last cell. -/
def Obligations.RepeatedSinkCommandChangesNothing : Prop :=
  ∀ (c : SinkCmd) (m : Memory), Memory.wf m → c.effect (c.effect m) = c.effect m

/-- 43_actuation_sink.md R165: the progress of the emission, command by command. -/
def Obligations.EmissionProgress : Prop :=
  ∀ (s : State) (k : Fin 6) (l : Latches) (rest : List SinkAnswer),
    s.busy = true → s.emitIdx = k.castSucc → s.lat = some l →
    (s.sinkIn = .done :: rest → ∃ t, step s = .next t ∧ t.emitIdx.val = k.val + 1 ∧
      (k.val = 5 → t.busy = false ∧ snkWord t = none ∧ t.responses = s.responses ++ [0b00#2 ++ s.pos]) ∧
      (∀ j : Fin 6, j.val = k.val + 1 → t.busy = true ∧ t.responses = s.responses ∧
        snkWord t = some (sinkCommand s.cfg.channels l j).word)) ∧
    (s.sinkIn = .err :: rest → ∃ t, step s = .next t ∧ t.fault = .sinkFault k ∧ t.busy = false ∧
      t.emitIdx = s.emitIdx ∧ t.pos = s.pos ∧ t.responses = s.responses ++ [0b10#2 ++ BitVec.ofNat 6 k.val])

/-- THE FRAME of a completed sink command: only its own channel, `emit_idx`, the trace and, for the sixth, `busy` and the
responses change. -/
def Obligations.SinkCommandFrame : Prop :=
  ∀ (s t : State) (k : Fin 6) (l : Latches) (rest : List SinkAnswer),
    s.busy = true → s.emitIdx = k.castSucc → s.lat = some l → Memory.wf s.sink → s.sinkIn = .done :: rest →
    step s = .next t →
    t.cfg = s.cfg ∧ t.pos = s.pos ∧ t.lat = s.lat ∧ t.fault = s.fault ∧ t.hostIn = s.hostIn ∧ t.sinkIn = rest ∧
    t.freeDraws = s.freeDraws ∧
    t.sinkTrace = s.sinkTrace ++ [((sinkCommand s.cfg.channels l k).word, .done)] ∧
    Memory.read t.sink (sinkCommand s.cfg.channels l k).chan.toNat = (sinkCommand s.cfg.channels l k).content ∧
    ∀ c : Nat, c ≠ (sinkCommand s.cfg.channels l k).chan.toNat → Memory.read t.sink c = Memory.read s.sink c

/-- 40_step_fsm.md R86: the sixth completion clears `busy` and answers OK with the position, which is the register's
value at that time. -/
def Obligations.SixthCompletionAnswersPosition : Prop :=
  ∀ (s : State) (rest : List SinkAnswer), EngineInv s → s.busy = true → s.emitIdx = 5 → s.sinkIn = .done :: rest →
    ∃ t r, step s = .next t ∧ t.busy = false ∧ t.responses = s.responses ++ [r] ∧ respStatus r = 0b00#2 ∧
      respValue r = t.pos ∧ t.pos = s.pos ∧ posOut t = respValue r

/-- 20_memory.md R48: when an OK response is sent, all six sink commands of the step have completed and their channels
hold what was commanded. -/
def Obligations.OkResponseMeansAllSixDelivered : Prop :=
  ∀ (s t : State) (r : RespWord), EngineInv s → step s = .next t → t.responses = s.responses ++ [r] →
    respStatus r = 0b00#2 → t.emitIdx = 6 ∧ ∃ l, t.lat = some l ∧ Delivered t l 6

/-- 30_encoding.md R65: exactly one response per accepted command (an accept owes one, and a response is sent only for one
owed); each is OK with the position after the step, or a sink fault with the failed index; status 01 and 11 never occur. -/
def Obligations.OneCodedResponsePerCommand : Prop :=
  (∀ s t : State, step s = .next t →
    t.responses.length + t.busy.toNat =
      s.responses.length + s.busy.toNat + (if (takenWord s).isSome then 1 else 0)) ∧
  (∀ s t : State, EngineInv s → step s = .next t → t.responses = s.responses ∨
    ∃ r, t.responses = s.responses ++ [r] ∧
      ((respStatus r = 0b00#2 ∧ respValue r = t.pos ∧ t.fault = .none) ∨
        ∃ k : Fin 6, respStatus r = 0b10#2 ∧ (respValue r).toNat = k.val ∧ t.fault = .sinkFault k)) ∧
  ∀ s : State, EngineInv s → ∀ r ∈ s.responses, respStatus r ≠ 0b01#2 ∧ respStatus r ≠ 0b11#2

/-- 60_exceptions.md R183, (a) to (g): a sink fault. Nothing is said of the failed channel. -/
def Obligations.SinkFaultEntry : Prop :=
  ∀ (s : State) (k : Fin 6) (l : Latches) (rest : List SinkAnswer), EngineInv s → s.busy = true →
    s.emitIdx = k.castSucc → s.lat = some l → s.sinkIn = .err :: rest →
    ∃ t, step s = .next t ∧ t.pos = s.pos ∧
      (∀ j : Fin 6, j.val < k.val →
        Memory.read t.sink (sinkCommand s.cfg.channels l j).chan.toNat = (sinkCommand s.cfg.channels l j).content) ∧
      (∀ c : Nat, c ≠ (sinkCommand s.cfg.channels l k).chan.toNat → Memory.read t.sink c = Memory.read s.sink c) ∧
      t.sinkTrace = s.sinkTrace ++ [((sinkCommand s.cfg.channels l k).word, .err)] ∧ snkWord t = none ∧
      t.fault = .sinkFault k ∧ faultCode t.fault = 2 ∧
      t.responses = s.responses ++ [0b10#2 ++ BitVec.ofNat 6 k.val] ∧
      t.busy = false ∧ t.emitIdx = s.emitIdx ∧ cmdReady t = false ∧
      t.cfg = s.cfg ∧ t.lat = s.lat ∧ t.hostIn = s.hostIn ∧ t.sinkIn = rest

/-- 60_exceptions.md R184: a faulted engine accepts no command, ever, keeps its fault, retries nothing, and is no successful
end. That `exec` of a command there answers the WHOLE state as it is, and that every step of it answers the same state, is
the model's reading of "accepts nothing", log entries 9 and 10 (DEDUCED). -/
def Obligations.FaultedEngineAcceptsNothing : Prop :=
  ∀ (s : State) (k : Fin 6), EngineInv s → s.fault = .sinkFault k →
    cmdReady s = false ∧ (∀ i : Instr, exec i s = .next s) ∧ (∀ n : Nat, runSteps n s = .next s) ∧ ¬ SuccessfulEnd s

/-- 43_actuation_sink.md R164: a sink that never answers leaves the engine waiting, with `busy = 1`, forever; no presented
command is taken. That the waiting engine answers a next state, the same but for the waits that have passed, is the model's
reading, log entry 10 (DEDUCED): 93 U3 calls it stuck. -/
def Obligations.SilentSinkWaitsForever : Prop :=
  ∀ (s : State) (m n : Nat), s.busy = true → s.sinkIn = List.replicate m .wait →
    runSteps n s = .next { s with sinkIn := List.replicate (m - n) .wait }

/-- 70_reset_and_hazards.md R205: a command is accepted only when `busy = 0` and `fault = NONE`; presented while busy it is
held (not accepted, not lost, not a fault) until the step completes; the progress of the sink lifts the hold and the held
word is accepted next. That `exec` of a command in a busy or faulted state answers the state as it is (first clause) is log
entry 9 (DEDUCED); the numbers of steps count the model's transitions, log entry 8 (DEDUCED and DESIGN CHOICE). -/
def Obligations.BusyHoldUntilCompletion : Prop :=
  (∀ (i : Instr) (s : State), s.busy = true ∨ s.fault ≠ .none → exec i s = .next s ∧ takenWord s = none) ∧
  (∀ s : State, EngineInv s → s.busy = true → ∃ t, step s = .next t ∧ t.hostIn = s.hostIn ∧ t.pos = s.pos ∧ t.lat = s.lat) ∧
  ∀ (i : Instr) (s : State) (rest : List HostEvent) (ds : List Nat) (more : List SinkAnswer), EngineInv s →
    s.busy = true → s.hostIn = .present (encodeByte i) :: rest → ds.length + s.emitIdx.val = 6 →
    s.sinkIn = doneAfter ds ++ more →
    ∃ t, runSteps (stepsOf ds) s = .next t ∧ cmdReady t = true ∧ t.hostIn = s.hostIn ∧ t.pos = s.pos ∧
      t.sinkIn = more ∧ runSteps (stepsOf ds + 1) s = exec i { t with hostIn := rest }

/-- 10_state.md R28 and row U12 of 93_implementation_defined.md: the latches hold no value before the first accept, and
reading them then is a fault; the end of a sink command reads them. No state with the invariant is one of these, so no run
of a constructed engine meets the fault, whatever host and sink do. -/
def Obligations.UnwrittenLatchesAreNeverRead : Prop :=
  (∀ (s : State) (a : SinkAnswer) (rest : List SinkAnswer), s.busy = true → s.emitIdx.val < 6 → s.lat = none →
    a ≠ .wait → s.sinkIn = a :: rest → step s = .fault .unwrittenLatch) ∧
  ∀ (n : Nat) (s : State), EngineInv s → runSteps n s ≠ .fault .unwrittenLatch

/-- 60_exceptions.md R197: while the host issues no command the engine changes nothing, so the coils stay as they are,
until the next command: the host may wait any length of time between commands (70_reset_and_hazards.md R206, R210), then
the words still to come are there, and the first of them is accepted as if there had been no wait. A host with nothing more
to present waits for ever. That an idle engine answers the same state, but for the pauses that have passed, as its next
state is log entry 10 (DEDUCED). -/
def Obligations.IdleEngineChangesNothing : Prop :=
  (∀ (s : State) (n : Nat) (rest : List HostEvent), cmdReady s = true → s.hostIn = List.replicate n .pause ++ rest →
    runSteps n s = .next { s with hostIn := rest }) ∧
  (∀ (s : State) (n k : Nat), cmdReady s = true → s.hostIn = List.replicate n .pause →
    runSteps (n + k) s = .next { s with hostIn := [] }) ∧
  ∀ (s : State) (n : Nat) (i : Instr) (rest : List HostEvent), cmdReady s = true →
    s.hostIn = List.replicate n .pause ++ .present (encodeByte i) :: rest →
    runSteps (n + 1) s = exec i { s with hostIn := rest }

-- WHOLE COMMANDS

/-- Every command runs to completion, whatever the finite delays of the sink (70_reset_and_hazards.md R210): it issues
exactly the six sink words in order (43_actuation_sink.md R162), leaves exactly their values on the six channels (R166),
has updated the position (40_step_fsm.md R85), answers it (R86), and ends the run successfully if no word is left
(70_reset_and_hazards.md R207). The number of steps counts the model's transitions, log entry 8 (DEDUCED and DESIGN CHOICE).
R166 holds absent other writers to the channels: that there are none is log entry 12 (DEDUCED). -/
def Obligations.CommandRunsToCompletion : Prop :=
  ∀ (i : Instr) (s : State) (rest : List HostEvent) (ds : List Nat) (more : List SinkAnswer), EngineInv s →
    cmdReady s = true → s.hostIn = .present (encodeByte i) :: rest → ds.length = 6 → s.sinkIn = doneAfter ds ++ more →
    ∃ t l, runSteps (1 + stepsOf ds) s = .next t ∧
      t.pos.toNat = newPosition s.cfg.m i.direction i.style s.pos.toNat ∧
      drive s.cfg i.style t.pos.toNat = some l ∧ t.lat = some l ∧
      (i.style ≠ .microstep → l.a = 4080#12 ∧ l.b = 4080#12) ∧
      t.cfg = s.cfg ∧ t.busy = false ∧ t.fault = .none ∧ t.emitIdx = 6 ∧ t.hostIn = rest ∧ t.sinkIn = more ∧
      t.freeDraws = s.freeDraws ∧ t.responses = s.responses ++ [0b00#2 ++ t.pos] ∧
      t.sinkTrace = s.sinkTrace ++
        [(0#1 ++ s.cfg.channels.chA ++ l.a, .done),
         (0#1 ++ s.cfg.channels.chB ++ l.b, .done),
         (1#1 ++ s.cfg.channels.chPin0 ++ (0#11 ++ BitVec.ofBool (l.mask.getLsbD 0)), .done),
         (1#1 ++ s.cfg.channels.chPin1 ++ (0#11 ++ BitVec.ofBool (l.mask.getLsbD 1)), .done),
         (1#1 ++ s.cfg.channels.chPin2 ++ (0#11 ++ BitVec.ofBool (l.mask.getLsbD 2)), .done),
         (1#1 ++ s.cfg.channels.chPin3 ++ (0#11 ++ BitVec.ofBool (l.mask.getLsbD 3)), .done)] ∧
      Memory.read t.sink s.cfg.channels.chA.toNat = .duty l.a ∧
      Memory.read t.sink s.cfg.channels.chB.toNat = .duty l.b ∧
      Memory.read t.sink s.cfg.channels.chPin0.toNat = .pin (l.mask.getLsbD 0) ∧
      Memory.read t.sink s.cfg.channels.chPin1.toNat = .pin (l.mask.getLsbD 1) ∧
      Memory.read t.sink s.cfg.channels.chPin2.toNat = .pin (l.mask.getLsbD 2) ∧
      Memory.read t.sink s.cfg.channels.chPin3.toNat = .pin (l.mask.getLsbD 3) ∧
      (∀ c : Nat, c ∉ channelNumbers s.cfg.channels → Memory.read t.sink c = Memory.read s.sink c) ∧
      (rest = [] → SuccessfulEnd t)

/-- 60_exceptions.md R183 over a whole command: the first `k` sink commands are done and the next one fails, whatever
the finite delays. The number of steps counts the model's transitions, log entry 8 (DEDUCED and DESIGN CHOICE); that the
other channels read so rests on there being no other writer, log entry 12 (DEDUCED). Nothing is said of the failed
channel. -/
def Obligations.CommandEndsInSinkFault : Prop :=
  ∀ (i : Instr) (s : State) (rest : List HostEvent) (k : Fin 6) (ds : List Nat) (d : Nat) (more : List SinkAnswer),
    EngineInv s → cmdReady s = true → s.hostIn = .present (encodeByte i) :: rest → ds.length = k.val →
    s.sinkIn = doneAfter ds ++ (List.replicate d .wait ++ .err :: more) →
    ∃ t l, runSteps (1 + stepsOf ds + d + 1) s = .next t ∧
      t.pos.toNat = newPosition s.cfg.m i.direction i.style s.pos.toNat ∧
      drive s.cfg i.style t.pos.toNat = some l ∧ t.lat = some l ∧
      t.fault = .sinkFault k ∧ t.busy = false ∧ t.emitIdx = k.castSucc ∧ t.hostIn = rest ∧ t.sinkIn = more ∧
      t.responses = s.responses ++ [0b10#2 ++ BitVec.ofNat 6 k.val] ∧
      t.sinkTrace.length = s.sinkTrace.length + k.val + 1 ∧
      (∀ j : Fin 6, j.val < k.val →
        Memory.read t.sink (sinkCommand s.cfg.channels l j).chan.toNat = (sinkCommand s.cfg.channels l j).content) ∧
      (∀ j : Fin 6, k.val < j.val →
        Memory.read t.sink (sinkCommand s.cfg.channels l j).chan.toNat =
          Memory.read s.sink (sinkCommand s.cfg.channels l j).chan.toNat) ∧
      (∀ c : Nat, c ∉ channelNumbers s.cfg.channels → Memory.read t.sink c = Memory.read s.sink c) ∧
      t.cfg = s.cfg ∧ ¬ SuccessfulEnd t

-- INVARIANTS AND RUNS

/-- The state after reset meets the invariant. Its configuration is the model's choice (log entry 1). -/
def Obligations.ResetMeetsInvariant : Prop := EngineInv State.reset

/-- Every step keeps the invariant: position in the cycle, legal configuration, canonical channels, latches that match the
position, delivered commands that still stand, responses that tell the fault register. -/
def Obligations.StepKeepsInvariant : Prop :=
  ∀ s t : State, EngineInv s → step s = .next t → EngineInv t

/-- 10_state.md R22: the position stays in the cycle along every run. -/
def Obligations.PositionStaysInCycle : Prop :=
  ∀ (n : Nat) (s t : State), EngineInv s → runSteps n s = .next t → t.pos.toNat < 4 * s.cfg.m.val

/-- From a state with the invariant no command stops the machine (60_exceptions.md R182); the only stop is the transport's
refusal of a wide word. R64 of 30_encoding.md has the transport refuse the word; that the refusal STOPS the machine, as
`wideCommandWord`, is the model's choice, log entry 11 (DESIGN CHOICE). That idle, waiting and faulted engines answer a next
state is log entry 10 (DEDUCED). -/
def Obligations.OnlyWideWordsStopTheMachine : Prop :=
  ∀ s : State, EngineInv s → (∃ t, step s = .next t) ∨
    ∃ (b : Byte) (rest : List HostEvent), s.hostIn = .present b :: rest ∧ 8 ≤ b.toNat ∧ cmdReady s = true ∧
      step s = .refused (.wideCommandWord b)

/-- 70_reset_and_hazards.md R209: `M`, the table and the channel map never change along a run, and table and position
domain agree. -/
def Obligations.ConfigurationNeverChanges : Prop :=
  ∀ (n : Nat) (s t : State), runSteps n s = .next t → t.cfg = s.cfg ∧
    (EngineInv s → t.cfg.curve.length = t.cfg.m.val + 1 ∧ t.pos.toNat < 4 * t.cfg.m.val)

/-- 20_memory.md R45: the channels that are none of the six configured ones are never written by the engine: every sink word
it shows addresses one of the six. That these channels read as before along any run rests, besides, on there being no
other writer, log entry 12 (DEDUCED): R45 leaves them to the platform. -/
def Obligations.OtherChannelsAreNeverWritten : Prop :=
  (∀ (s : State) (w : SinkWord), snkWord s = some w →
    (w.extractLsb' 12 4).toNat ∈ channelNumbers s.cfg.channels) ∧
  ∀ (n : Nat) (s t : State) (c : Nat), runSteps n s = .next t → c ∉ channelNumbers s.cfg.channels →
    Memory.read t.sink c = Memory.read s.sink c

-- CONSTRUCTION

/-- 60_exceptions.md R180: construction fails with CONFIGURATION_ERROR exactly when `M` is neither 8 nor 16. -/
def Obligations.ConfigurationErrorExactly : Prop :=
  ∀ (a : ConstructionArgs) (sink : Memory),
    (construct a sink = .fault (.configurationError a.m) ↔ a.m ≠ 8 ∧ a.m ≠ 16) ∧
    (∀ f, construct a sink = .fault f → f = .configurationError a.m) ∧
    (a.m ≠ 8 → a.m ≠ 16 → constructionCode (construct a sink) = some 1) ∧
    (a.m = 8 ∨ a.m = 16 → curveOk a.m a.curve = true → channelsOk a = true → ∃ t, construct a sink = .next t)

/-- 41_curve_lut.md R121: a table is refused exactly when it breaks (a) to (e). -/
def Obligations.TableConstraintsDecideConstruction : Prop :=
  ∀ (a : ConstructionArgs) (sink : Memory), a.m = 8 ∨ a.m = 16 → channelsOk a = true →
    ((∃ t, construct a sink = .next t) ↔
      a.curve.length = a.m + 1 ∧ (∀ v ∈ a.curve, v ≤ 255) ∧
      (∀ i u v : Nat, i < a.m → a.curve[i]? = some u → a.curve[i + 1]? = some v → u ≤ v) ∧
      a.curve[0]? = some 0 ∧ a.curve[a.m]? = some 255 ∧
      (a.m = 16 → a.curve[1]? = some 25 ∧ a.curve[15]? = some 253)) ∧
    ((¬ ∃ t, construct a sink = .next t) → construct a sink = .refused .curveTablePremise)

/-- 00_scope.md R9: a channel map is refused exactly when a number leaves 0..15 or repeats. -/
def Obligations.ChannelMapDecidesConstruction : Prop :=
  ∀ (a : ConstructionArgs) (sink : Memory), a.m = 8 ∨ a.m = 16 → curveOk a.m a.curve = true →
    ((∃ t, construct a sink = .next t) ↔
      (a.chA ≤ 15 ∧ a.chB ≤ 15 ∧ a.chPin0 ≤ 15 ∧ a.chPin1 ≤ 15 ∧ a.chPin2 ≤ 15 ∧ a.chPin3 ≤ 15) ∧
      [a.chA, a.chB, a.chPin0, a.chPin1, a.chPin2, a.chPin3].Nodup) ∧
    ((¬ ∃ t, construct a sink = .next t) → construct a sink = .refused .channelMapPremise)

/-- 70_reset_and_hazards.md R200: what construction does, and nothing more. -/
def Obligations.ConstructionResetsTheEngine : Prop :=
  ∀ (a : ConstructionArgs) (sink : Memory),
    (a.m ≠ 8 → a.m ≠ 16 → construct a sink = .fault (.configurationError a.m)) ∧
    ∀ t, construct a sink = .next t →
      t.cfg.m.val = a.m ∧ t.cfg.curve.map BitVec.toNat = a.curve ∧
      (t.cfg.channels.chA.toNat = a.chA ∧ t.cfg.channels.chB.toNat = a.chB ∧
        t.cfg.channels.chPin0.toNat = a.chPin0 ∧ t.cfg.channels.chPin1.toNat = a.chPin1 ∧
        t.cfg.channels.chPin2.toNat = a.chPin2 ∧ t.cfg.channels.chPin3.toNat = a.chPin3) ∧
      t.pos = 0#6 ∧ t.busy = false ∧ t.emitIdx = 0 ∧ t.fault = .none ∧ t.lat = none ∧
      t.sinkTrace = [] ∧ (∀ c : Nat, Memory.read t.sink c = Memory.read sink c) ∧ cmdReady t = true

/-- Every construction over a canonical sink gives an engine with the invariant. -/
def Obligations.ConstructionGivesInvariant : Prop :=
  ∀ (a : ConstructionArgs) (sink : Memory) (t : State), Memory.wf sink → construct a sink = .next t → EngineInv t

/-- 70_reset_and_hazards.md R204, the boot requirements. With a legal `M` a launch gives an engine exactly under the named
premises: a sink ready on the six configured channels, a table meeting R121, a channel map meeting R9. The engine itself
checks `M` alone, so a wrong `M` is its error whatever the rest. Only then are commands issued: the engine launched is
ready, nothing has been sent to the sink, and the first word presented is accepted. That the model REFUSES an engine
over a sink that is not ready, and by which name, is its choice, log entry 24 (DESIGN CHOICE). -/
def Obligations.LaunchPremisesDecideLaunch : Prop :=
  ∀ (a : ConstructionArgs) (sink : Memory) (ready : List Nat),
    (a.m ≠ 8 → a.m ≠ 16 → launch a sink ready = .fault (.configurationError a.m)) ∧
    (a.m = 8 ∨ a.m = 16 → ((∃ t, launch a sink ready = .next t) ↔ LaunchPremises a ready)) ∧
    (∀ (t : State) (c : Nat), construct a sink = .next t → c ∈ a.channelList → c ∉ ready →
      launch a sink ready = .refused .sinkReadyPremise) ∧
    ∀ t, launch a sink ready = .next t → construct a sink = .next t ∧ cmdReady t = true ∧ t.sinkTrace = [] ∧
      (Memory.wf sink → EngineInv t) ∧
      ∀ i : Instr, ∃ u, step (presentByte (encodeByte i) t) = exec i t ∧ exec i t = .next u ∧ u.busy = true
end

