-- ==== Sys2Proof/Laws/Assembler.lean ====
section
/-! SUPPORT. What a tokenizer's answer does not depend on: the case of letters and a comment (30_encoding.md R66). -/

namespace Sys2Proof.Machine

open Sys2Proof

/-- A map of characters that keeps each letter but for its case and leaves every other character alone does not change
the tokens. -/
theorem tokenize_map {f : Char → Char} (hup : ∀ c, (f c).toUpper = c.toUpper)
    (halpha : ∀ c, (f c).isAlpha = c.isAlpha) (hother : ∀ c, c.isAlpha = false → f c = c) (acc line : List Char) :
    tokenize acc (line.map f) = tokenize acc line := by
  induction line generalizing acc with
  | nil => rfl
  | cons c cs ih =>
    cases hc : c.isAlpha with
    | false => simp only [List.map_cons, tokenize, hother c hc, ih]
    | true =>
      have ne : ∀ d : Char, d.isAlpha = false → c ≠ d ∧ f c ≠ d := by
        intro d hd
        constructor <;> intro h
        · rw [h, hd] at hc
          cases hc
        · rw [← halpha, h, hd] at hc
          cases hc
      simp [tokenize, ih, hup, halpha, ne ';' (by decide), ne ' ' (by decide), ne '\t' (by decide),
        ne '\r' (by decide), ne ',' (by decide), ne '(' (by decide), ne ')' (by decide), ne '.' (by decide)]

/-- A comment adds no token. -/
theorem tokenize_append_comment (acc line comment : List Char) :
    tokenize acc (line ++ ';' :: comment) = tokenize acc line := by
  induction line generalizing acc with
  | nil => simp [tokenize]
  | cons c cs ih => simp only [List.cons_append, tokenize, ih]

end Sys2Proof.Machine
end

