-- ==== Sys2Proof/Laws/Construct.lean ====
section
/-! SUPPORT. What construction answers, by its argument `M` (70_reset_and_hazards.md R200). -/

namespace Sys2Proof.Machine

open Sys2Proof

theorem phaseWidth_ofNat_cases (n : Nat) :
    (n = 8 ∧ PhaseWidth.ofNat? n = some .m8) ∨ (n = 16 ∧ PhaseWidth.ofNat? n = some .m16) ∨
      (n ≠ 8 ∧ n ≠ 16 ∧ PhaseWidth.ofNat? n = none) := by
  by_cases h : n = 8
  · simp [h, PhaseWidth.ofNat?]
  · by_cases h2 : n = 16
    · simp [h2, PhaseWidth.ofNat?]
    · simp [h, h2, PhaseWidth.ofNat?]

/-- With a legal `M` only the model's premises decide (60_exceptions.md R181). -/
theorem construct_of_phaseWidth {a : ConstructionArgs} (h : a.m = 8 ∨ a.m = 16) (sink : Memory) :
    ∃ m : PhaseWidth, m.val = a.m ∧ construct a sink =
      if curveOk a.m a.curve then
        if channelsOk a then .next (State.constructed (a.config m) sink) else .refused .channelMapPremise
      else .refused .curveTablePremise := by
  rcases phaseWidth_ofNat_cases a.m with ⟨h1, h2⟩ | ⟨h1, h2⟩ | ⟨h1, h2, -⟩
  · exact ⟨.m8, h1.symm, by simp only [construct, h2]⟩
  · exact ⟨.m16, h1.symm, by simp only [construct, h2]⟩
  · omega

/-- Arguments that meet the premises are what the configuration reads back as. -/
theorem config_args {a : ConstructionArgs} {m : PhaseWidth} (hm : m.val = a.m) (h1 : curveOk a.m a.curve = true)
    (h2 : channelsOk a = true) : (a.config m).args = a := by
  simp only [curveOk, curveEntriesOk, Bool.and_eq_true, List.all_eq_true, decide_eq_true_eq] at h1
  simp only [channelsOk, channelsInRange, ConstructionArgs.channelList, Bool.and_eq_true, List.all_cons, List.all_nil,
    decide_eq_true_eq] at h2
  have hcv : (a.curve.map (BitVec.ofNat 8)).map BitVec.toNat = a.curve := by
    rw [List.map_map]
    conv_rhs => rw [← List.map_id a.curve]
    apply List.map_congr_left
    intro x hx
    have := h1.1.1.1.2 x hx
    simp
    omega
  cases a
  simp only [ConstructionArgs.config, EngineConfig.args, ConstructionArgs.mk.injEq, BitVec.toNat_ofNat] at *
  refine ⟨hm, hcv, ?_, ?_, ?_, ?_, ?_, ?_⟩ <;> omega

/-- What a launch that gives an engine says: the construction gives that engine, and the sink is ready
(70_reset_and_hazards.md R204). -/
theorem launch_next_iff {a : ConstructionArgs} {sink : Memory} {ready : List Nat} {t : State} :
    launch a sink ready = .next t ↔ construct a sink = .next t ∧ sinkReadyOn a ready = true := by
  unfold launch
  cases construct a sink <;> cases sinkReadyOn a ready <;> simp

/-- A construction that gives no engine is the launch's answer, ready sink or not. -/
theorem launch_of_construct_ne_next {a : ConstructionArgs} {sink : Memory} (h : ∀ t, construct a sink ≠ .next t)
    (ready : List Nat) : launch a sink ready = construct a sink := by
  unfold launch
  cases hc : construct a sink with
  | next t => exact absurd hc (h t)
  | fault f => rfl
  | refused r => rfl

/-- An engine constructed over a sink that is not ready is refused by name. -/
theorem launch_of_not_ready {a : ConstructionArgs} {sink : Memory} {t : State} {ready : List Nat}
    (hc : construct a sink = .next t) (hr : sinkReadyOn a ready = false) :
    launch a sink ready = .refused .sinkReadyPremise := by
  simp [launch, hc, hr]

theorem sinkReadyOn_iff {a : ConstructionArgs} {ready : List Nat} :
    sinkReadyOn a ready = true ↔ ∀ c ∈ a.channelList, c ∈ ready := by
  simp [sinkReadyOn]

end Sys2Proof.Machine
end

