-- ==== Sys2Proof/Laws/Decode.lean ====
section
/-! SUPPORT. The transport's two cases (30_encoding.md R64). -/

namespace Sys2Proof

/-- A byte with a bit above bit 2 set is refused. -/
theorem decode_wide {b : Byte} (h : 8 ≤ b.toNat) : decode b = .error (.wideCommandWord b) := by
  simp [decode, transport, show ¬ b.toNat < 8 by omega]

/-- Every other byte is a command. -/
theorem decode_narrow {b : Byte} (h : b.toNat < 8) : decode b = .ok (decodeWord (b.setWidth 3)) := by
  simp [decode, transport, h]

end Sys2Proof
end

