-- ==== Sys2Proof/Laws/Memory.lean ====
section
/-! SUPPORT. The laws of the sink's channel space: read after write, and the canonical form is kept. -/

namespace Sys2Proof.Machine

open Sys2Proof

@[simp] theorem Memory.read_nil (c : Nat) : Memory.read [] c = .unwritten := rfl

theorem Memory.wf_nil : Memory.wf [] := ⟨List.Pairwise.nil, by simp⟩

theorem Memory.wf_tail {e : Nat × ChanState} {m : Memory} (h : Memory.wf (e :: m)) : Memory.wf m :=
  ⟨(List.pairwise_cons.1 h.1).2, fun x hx => h.2 x (List.mem_cons_of_mem e hx)⟩

/-- A channel below every listed one reads as unlisted. -/
theorem Memory.read_below {m : Memory} {c : Nat} (h : ∀ e ∈ m, c < e.1) :
    Memory.read m c = Memory.unlisted := by
  induction m with
  | nil => rfl
  | cons e m ih =>
    have he : c ≠ e.1 := by have := h e (by simp); omega
    simp [Memory.read, he, ih fun x hx => h x (List.mem_cons_of_mem e hx)]

theorem Memory.mem_write {m : Memory} {c : Nat} {v : ChanState} {e : Nat × ChanState}
    (h : e ∈ Memory.write m c v) : e ∈ m ∨ (e = (c, v) ∧ v ≠ Memory.unlisted) := by
  induction m with
  | nil => simp only [Memory.write] at h; split at h <;> simp_all
  | cons x m ih =>
    simp only [Memory.write] at h
    split at h
    · split at h <;> simp_all
      tauto
    · split at h
      · split at h <;> simp_all
        tauto
      · simp only [List.mem_cons] at h ⊢
        tauto

/-- Every write of a channel in 0..15 keeps the canonical form. -/
theorem Memory.write_wf {m : Memory} {c : Nat} {v : ChanState} (hm : Memory.wf m) (hc : c < 16) :
    Memory.wf (Memory.write m c v) := by
  refine ⟨?_, fun e he => ?_⟩
  · induction m with
    | nil => simp only [Memory.write]; split <;> simp
    | cons x m ih =>
      have hx := List.pairwise_cons.1 hm.1
      simp only [Memory.write]
      split
      · split
        · exact hm.1
        · refine List.pairwise_cons.2 ⟨fun e he => ?_, hm.1⟩
          rcases List.mem_cons.1 he with rfl | he
          · assumption
          · exact lt_trans ‹_› (hx.1 e he)
      · split
        · split
          · exact hx.2
          · subst c
            exact List.pairwise_cons.2 ⟨fun e he => hx.1 e he, hx.2⟩
        · refine List.pairwise_cons.2 ⟨fun e he => ?_, ih (Memory.wf_tail hm)⟩
          rcases Memory.mem_write he with he | ⟨rfl, -⟩
          · exact hx.1 e he
          · show x.1 < c
            omega
  · rcases Memory.mem_write he with he | ⟨rfl, hv⟩
    · exact hm.2 e he
    · exact ⟨hc, hv⟩

/-- A read of the written channel gives the value written. -/
theorem Memory.read_write_same {m : Memory} {c : Nat} {v : ChanState} (hm : Memory.wf m) :
    Memory.read (Memory.write m c v) c = v := by
  induction m with
  | nil => simp only [Memory.write]; split <;> simp_all [Memory.read, Memory.unlisted]
  | cons x m ih =>
    have hx := (List.pairwise_cons.1 hm.1).1
    simp only [Memory.write]
    split
    · split
      · subst v
        refine Memory.read_below fun e he => ?_
        rcases List.mem_cons.1 he with rfl | he
        · assumption
        · exact lt_trans ‹_› (hx e he)
      · simp [Memory.read]
    · split
      · split
        · subst c v
          exact Memory.read_below hx
        · simp [Memory.read]
      · rw [Memory.read, if_neg ‹_›, ih (Memory.wf_tail hm)]

/-- A write leaves every other channel alone. -/
theorem Memory.read_write_other {m : Memory} {c d : Nat} {v : ChanState} (h : d ≠ c) :
    Memory.read (Memory.write m c v) d = Memory.read m d := by
  induction m with
  | nil => simp only [Memory.write]; split <;> simp [Memory.read, h]
  | cons x m ih =>
    simp only [Memory.write]
    split
    · split <;> simp [Memory.read, h]
    · split
      · split <;> simp_all [Memory.read]
      · simp [Memory.read, ih]

theorem setAnalogDuty_wf {m : Memory} (hm : Memory.wf m) (c : Channel) (d : Nat) :
    Memory.wf (setAnalogDuty m c d) := Memory.write_wf hm c.isLt

theorem setDigitalPin_wf {m : Memory} (hm : Memory.wf m) (c : Channel) (b : Bool) :
    Memory.wf (setDigitalPin m c b) := Memory.write_wf hm c.isLt

/-- A 12-bit duty is never clamped: the channel holds exactly it (43_actuation_sink.md R163). -/
theorem setAnalogDuty_duty (m : Memory) (c : Channel) (d : Duty) :
    setAnalogDuty m c d.toNat = Memory.write m c.toNat (.duty d) := by
  have : d.toNat ≤ 4095 := by have := d.isLt; omega
  simp [setAnalogDuty, this]

end Sys2Proof.Machine
end

