-- ==== Sys2Proof/Laws/Operands.lean ====
section
/-! SUPPORT. The laws of the position arithmetic and of the tables: the new position lies in the cycle, in plain
natural-number form; every table read of a legal configuration finds an entry. -/

namespace Sys2Proof.Machine

open Sys2Proof

theorem PhaseWidth_val_cases (m : PhaseWidth) : m.val = 8 ∨ m.val = 16 := by cases m <;> simp [PhaseWidth.val]

theorem PhaseWidth_cycle_le (m : PhaseWidth) : m.cycle ≤ 64 := by cases m <;> decide

/-- `wrapPosition` of a Forward step (40_step_fsm.md R85). -/
theorem wrapPosition_forward (m : PhaseWidth) (s mag : Nat) :
    wrapPosition m s (signedDelta .forward mag) = (s + mag) % (4 * m.val) := by
  have h : ((s : Int) + mag + 4 * m.val) % (4 * m.val) = ((s + mag : Nat) : Int) % ((4 * m.val : Nat) : Int) := by
    push_cast
    rw [Int.add_emod_right]
  simp only [wrapPosition, signedDelta]
  rw [h, ← Int.natCast_emod, Int.toNat_natCast]

/-- `wrapPosition` of a Backward step, whose advance never passes a cycle (40_step_fsm.md R85). -/
theorem wrapPosition_backward (m : PhaseWidth) (s mag : Nat) (h : mag ≤ 4 * m.val) :
    wrapPosition m s (signedDelta .backward mag) = (s + (4 * m.val - mag)) % (4 * m.val) := by
  have e : ((s : Int) + -(mag : Int) + 4 * m.val) = ((s + (4 * m.val - mag) : Nat) : Int) := by omega
  simp only [wrapPosition, signedDelta]
  rw [e, show (4 * (m.val : Int)) = ((4 * m.val : Nat) : Int) by push_cast; rfl, ← Int.natCast_emod,
    Int.toNat_natCast]

theorem advance_le (m : PhaseWidth) (y : Style) (s : Nat) : advance m y s ≤ m.val := by
  rcases PhaseWidth_val_cases m with h | h <;> cases y <;> simp only [advance] <;> (try split) <;> omega

/-- The new position lies in the cycle, whatever the old one was (10_state.md R22). -/
theorem newPosition_lt (m : PhaseWidth) (d : Direction) (y : Style) (s : Nat) :
    newPosition m d y s < m.cycle := by
  have hm : 0 < 4 * m.val := by rcases PhaseWidth_val_cases m with h | h <;> omega
  have ha := advance_le m y s
  cases d
  · rw [newPosition, wrapPosition_forward]; exact Nat.mod_lt _ hm
  · rw [newPosition, wrapPosition_backward _ _ _ (by omega)]; exact Nat.mod_lt _ hm

/-- The position register holds a new position exactly. -/
theorem ofNat_newPosition_toNat (m : PhaseWidth) (d : Direction) (y : Style) (s : Nat) :
    (BitVec.ofNat 6 (newPosition m d y s)).toNat = newPosition m d y s := by
  have := newPosition_lt m d y s
  have := PhaseWidth_cycle_le m
  simp only [BitVec.toNat_ofNat]
  omega

/-- The new position of a Forward command, in natural numbers (40_step_fsm.md R85). -/
theorem newPosition_forward (m : PhaseWidth) (y : Style) (s : Nat) :
    newPosition m .forward y s = (s + advance m y s) % (4 * m.val) := wrapPosition_forward m s _

/-- The new position of a Backward command, in natural numbers (40_step_fsm.md R85). -/
theorem newPosition_backward (m : PhaseWidth) (y : Style) (s : Nat) :
    newPosition m .backward y s = (s + 4 * m.val - advance m y s) % (4 * m.val) := by
  have := advance_le m y s
  rw [newPosition, wrapPosition_backward m s _ (by omega)]
  congr 1
  omega

/-- A legal table has `M + 1` entries (41_curve_lut.md R121(a)). -/
theorem curve_length {c : EngineConfig} (h : c.legal = true) : c.curve.length = c.m.val + 1 := by
  simp only [EngineConfig.legal, curveOk, curveLengthOk, EngineConfig.args, Bool.and_eq_true, beq_iff_eq,
    List.length_map] at h
  exact h.1.1.1.1.1

theorem curveRead_isSome {c : EngineConfig} (h : c.legal = true) {i : Nat} (hi : i ≤ c.m.val) :
    ∃ a, curveRead c i = some a := by
  have hl := curve_length h
  exact ⟨c.curve[i]'(by omega), by simp [curveRead]⟩

theorem curvePair_isSome {c : EngineConfig} (h : c.legal = true) {i j : Nat} (hi : i ≤ c.m.val) (hj : j ≤ c.m.val) :
    ∃ p, curvePair c i j = some p := by
  obtain ⟨a, ha⟩ := curveRead_isSome h hi
  obtain ⟨b, hb⟩ := curveRead_isSome h hj
  exact ⟨(a, b), by simp [curvePair, ha, hb]⟩

/-- What a pair of curve reads found. -/
theorem curvePair_reads {c : EngineConfig} {i j : Nat} {a b : Magnitude} (h : curvePair c i j = some (a, b)) :
    c.curve[i]? = some a ∧ c.curve[j]? = some b := by
  unfold curvePair curveRead at h
  split at h
  · cases h
    exact ⟨‹_›, ‹_›⟩
  · cases h

theorem legal_curveOk {c : EngineConfig} (h : c.legal = true) : curveOk c.m.val c.args.curve = true := by
  simp only [EngineConfig.legal, Bool.and_eq_true] at h
  exact h.1

/-- The ends of a legal table (41_curve_lut.md R121(d)). -/
theorem curve_ends {c : EngineConfig} (h : c.legal = true) :
    c.curve[0]? = some 0#8 ∧ c.curve[c.m.val]? = some 255#8 := by
  have hc := legal_curveOk h
  simp only [curveOk, curveEndsOk, EngineConfig.args, Bool.and_eq_true, beq_iff_eq, List.getElem?_map,
    Option.map_eq_some_iff] at hc
  obtain ⟨⟨-, ⟨a, ha, ha'⟩, ⟨b, hb, hb'⟩⟩, -⟩ := hc
  exact ⟨by rw [ha]; congr; exact BitVec.eq_of_toNat_eq ha', by rw [hb]; congr; exact BitVec.eq_of_toNat_eq hb'⟩

/-- A legal table is non-decreasing (41_curve_lut.md R121(c)). -/
theorem curve_nondecreasing {c : EngineConfig} (h : c.legal = true) {i : Nat} {a b : Magnitude} (hi : i < c.m.val)
    (ha : c.curve[i]? = some a) (hb : c.curve[i + 1]? = some b) : a.toNat ≤ b.toNat := by
  have hc := legal_curveOk h
  simp only [curveOk, curveMonotone, EngineConfig.args, Bool.and_eq_true, List.all_eq_true, List.mem_range] at hc
  have hm := hc.1.1.2 i hi
  simpa [List.getD_eq_getElem?_getD, List.getElem?_map, ha, hb] using hm

theorem octMask_isSome (m : PhaseWidth) (s : Nat) : ∃ k, octMask m s = some k := by
  have h : octant m s % 8 < octTable.length := by simp [octTable]; omega
  exact ⟨_, List.getElem?_eq_getElem h⟩

theorem quadMask_isSome {m : PhaseWidth} {s : Nat} (h : s < m.cycle) : ∃ k, quadMask m s = some k := by
  have h : quadrant m s < quadTable.length := by
    simp only [quadTable, List.length_cons, List.length_nil, quadrant, PhaseWidth.cycle] at *
    exact Nat.div_lt_of_lt_mul (by omega)
  exact ⟨_, List.getElem?_eq_getElem h⟩

/-- On a legal configuration and a position of the cycle every table read finds an entry (41_curve_lut.md R127). -/
theorem drive_isSome {c : EngineConfig} (h : c.legal = true) (y : Style) {s : Nat} (hs : s < c.m.cycle) :
    ∃ l, drive c y s = some l := by
  have hm : ∃ p, magnitudes c y s = some p := by
    cases y
    case microstep =>
      simp only [PhaseWidth.cycle] at hs
      simp only [magnitudes, curveLookup]
      split
      · exact curvePair_isSome h (by omega) (by omega)
      · split
        · exact curvePair_isSome h (by omega) (by omega)
        · split
          · exact curvePair_isSome h (by omega) (by omega)
          · exact curvePair_isSome h (by omega) (by omega)
    all_goals exact ⟨_, rfl⟩
  have hk : ∃ k, coilMask c.m y s = some k := by
    cases y
    case microstep => exact quadMask_isSome hs
    all_goals exact octMask_isSome c.m s
  obtain ⟨⟨a, b⟩, hm⟩ := hm
  obtain ⟨k, hk⟩ := hk
  exact ⟨⟨scaleDuty a, scaleDuty b, k⟩, by simp only [drive, hm, hk]⟩

/-- A scaled magnitude is the magnitude times 16 (41_curve_lut.md R126). -/
theorem scaleDuty_toNat (a : Magnitude) : (scaleDuty a).toNat = a.toNat * 16 := by
  have := a.isLt
  simp only [scaleDuty, Config.dutyScale, BitVec.toNat_mul, BitVec.toNat_setWidth, BitVec.toNat_ofNat]
  omega

end Sys2Proof.Machine
end

