-- ==== Sys2Proof/Laws/State.lean ====
section
/-! SUPPORT. What each update of the state does to each field, true by unfolding. -/

namespace Sys2Proof.Machine

open Sys2Proof

section LatchStep
variable (p : Nat) (l : Latches) (s : State)
@[simp] theorem latchStep_cfg : (latchStep p l s).cfg = s.cfg := rfl
@[simp] theorem latchStep_pos : (latchStep p l s).pos = BitVec.ofNat 6 p := rfl
@[simp] theorem latchStep_busy : (latchStep p l s).busy = true := rfl
@[simp] theorem latchStep_lat : (latchStep p l s).lat = some l := rfl
@[simp] theorem latchStep_emitIdx : (latchStep p l s).emitIdx = 0 := rfl
@[simp] theorem latchStep_fault : (latchStep p l s).fault = s.fault := rfl
@[simp] theorem latchStep_sink : (latchStep p l s).sink = s.sink := rfl
@[simp] theorem latchStep_hostIn : (latchStep p l s).hostIn = s.hostIn := rfl
@[simp] theorem latchStep_sinkIn : (latchStep p l s).sinkIn = s.sinkIn := rfl
@[simp] theorem latchStep_responses : (latchStep p l s).responses = s.responses := rfl
@[simp] theorem latchStep_sinkTrace : (latchStep p l s).sinkTrace = s.sinkTrace := rfl
@[simp] theorem latchStep_freeDraws : (latchStep p l s).freeDraws = s.freeDraws := rfl
end LatchStep

section CompleteStep
variable (s : State)
@[simp] theorem completeStep_cfg : (completeStep s).cfg = s.cfg := rfl
@[simp] theorem completeStep_pos : (completeStep s).pos = s.pos := rfl
@[simp] theorem completeStep_busy : (completeStep s).busy = false := rfl
@[simp] theorem completeStep_lat : (completeStep s).lat = s.lat := rfl
@[simp] theorem completeStep_emitIdx : (completeStep s).emitIdx = s.emitIdx := rfl
@[simp] theorem completeStep_fault : (completeStep s).fault = s.fault := rfl
@[simp] theorem completeStep_sink : (completeStep s).sink = s.sink := rfl
@[simp] theorem completeStep_hostIn : (completeStep s).hostIn = s.hostIn := rfl
@[simp] theorem completeStep_sinkIn : (completeStep s).sinkIn = s.sinkIn := rfl
@[simp] theorem completeStep_responses : (completeStep s).responses = s.responses ++ [respOk s.pos] := rfl
@[simp] theorem completeStep_sinkTrace : (completeStep s).sinkTrace = s.sinkTrace := rfl
@[simp] theorem completeStep_freeDraws : (completeStep s).freeDraws = s.freeDraws := rfl
end CompleteStep

section AdvanceEmission
variable (k : Fin 6) (c : SinkCmd) (s : State)
@[simp] theorem advanceEmission_cfg : (advanceEmission k c s).cfg = s.cfg := rfl
@[simp] theorem advanceEmission_pos : (advanceEmission k c s).pos = s.pos := rfl
@[simp] theorem advanceEmission_busy : (advanceEmission k c s).busy = s.busy := rfl
@[simp] theorem advanceEmission_lat : (advanceEmission k c s).lat = s.lat := rfl
@[simp] theorem advanceEmission_emitIdx : (advanceEmission k c s).emitIdx = k.succ := rfl
@[simp] theorem advanceEmission_fault : (advanceEmission k c s).fault = s.fault := rfl
@[simp] theorem advanceEmission_sink : (advanceEmission k c s).sink = c.effect s.sink := rfl
@[simp] theorem advanceEmission_hostIn : (advanceEmission k c s).hostIn = s.hostIn := rfl
@[simp] theorem advanceEmission_sinkIn : (advanceEmission k c s).sinkIn = s.sinkIn := rfl
@[simp] theorem advanceEmission_responses : (advanceEmission k c s).responses = s.responses := rfl
@[simp] theorem advanceEmission_sinkTrace :
    (advanceEmission k c s).sinkTrace = s.sinkTrace ++ [(c.word, .done)] := rfl
@[simp] theorem advanceEmission_freeDraws : (advanceEmission k c s).freeDraws = s.freeDraws := rfl
end AdvanceEmission

section RaiseSinkFault
variable (k : Fin 6) (c : SinkCmd) (s : State)
@[simp] theorem raiseSinkFault_cfg : (raiseSinkFault k c s).cfg = s.cfg := rfl
@[simp] theorem raiseSinkFault_pos : (raiseSinkFault k c s).pos = s.pos := rfl
@[simp] theorem raiseSinkFault_busy : (raiseSinkFault k c s).busy = false := rfl
@[simp] theorem raiseSinkFault_lat : (raiseSinkFault k c s).lat = s.lat := rfl
@[simp] theorem raiseSinkFault_emitIdx : (raiseSinkFault k c s).emitIdx = s.emitIdx := rfl
@[simp] theorem raiseSinkFault_fault : (raiseSinkFault k c s).fault = .sinkFault k := rfl
@[simp] theorem raiseSinkFault_sink :
    (raiseSinkFault k c s).sink = Memory.write s.sink c.chan.toNat (Config.freeChannel s.freeDraws) := rfl
@[simp] theorem raiseSinkFault_hostIn : (raiseSinkFault k c s).hostIn = s.hostIn := rfl
@[simp] theorem raiseSinkFault_sinkIn : (raiseSinkFault k c s).sinkIn = s.sinkIn := rfl
@[simp] theorem raiseSinkFault_responses :
    (raiseSinkFault k c s).responses = s.responses ++ [respSinkFault k] := rfl
@[simp] theorem raiseSinkFault_sinkTrace :
    (raiseSinkFault k c s).sinkTrace = s.sinkTrace ++ [(c.word, .err)] := rfl
@[simp] theorem raiseSinkFault_freeDraws : (raiseSinkFault k c s).freeDraws = s.freeDraws + 1 := rfl
end RaiseSinkFault

section CommandChannel
variable (b : Byte) (s : State)
@[simp] theorem dropWord_cfg : (dropWord s).cfg = s.cfg := rfl
@[simp] theorem dropWord_pos : (dropWord s).pos = s.pos := rfl
@[simp] theorem dropWord_busy : (dropWord s).busy = s.busy := rfl
@[simp] theorem dropWord_lat : (dropWord s).lat = s.lat := rfl
@[simp] theorem dropWord_emitIdx : (dropWord s).emitIdx = s.emitIdx := rfl
@[simp] theorem dropWord_fault : (dropWord s).fault = s.fault := rfl
@[simp] theorem dropWord_sink : (dropWord s).sink = s.sink := rfl
@[simp] theorem dropWord_hostIn : (dropWord s).hostIn = s.hostIn.tail := rfl
@[simp] theorem dropWord_sinkIn : (dropWord s).sinkIn = s.sinkIn := rfl
@[simp] theorem dropWord_responses : (dropWord s).responses = s.responses := rfl
@[simp] theorem dropWord_sinkTrace : (dropWord s).sinkTrace = s.sinkTrace := rfl
@[simp] theorem dropWord_freeDraws : (dropWord s).freeDraws = s.freeDraws := rfl
@[simp] theorem presentByte_hostIn : (presentByte b s).hostIn = .present b :: s.hostIn := rfl
@[simp] theorem dropWord_presentByte : dropWord (presentByte b s) = s := rfl
@[simp] theorem cmdReady_dropWord : cmdReady (dropWord s) = cmdReady s := rfl
@[simp] theorem cmdReady_presentByte : cmdReady (presentByte b s) = cmdReady s := rfl
end CommandChannel

section Constructed
variable (cfg : EngineConfig) (sink : Memory)
@[simp] theorem constructed_cfg : (State.constructed cfg sink).cfg = cfg := rfl
@[simp] theorem constructed_pos : (State.constructed cfg sink).pos = 0#6 := rfl
@[simp] theorem constructed_busy : (State.constructed cfg sink).busy = false := rfl
@[simp] theorem constructed_lat : (State.constructed cfg sink).lat = none := rfl
@[simp] theorem constructed_emitIdx : (State.constructed cfg sink).emitIdx = 0 := rfl
@[simp] theorem constructed_fault : (State.constructed cfg sink).fault = .none := rfl
@[simp] theorem constructed_sink : (State.constructed cfg sink).sink = sink := rfl
@[simp] theorem constructed_responses : (State.constructed cfg sink).responses = [] := rfl
end Constructed

end Sys2Proof.Machine
end

