-- ==== Sys2Proof/Laws/Ops.lean ====
section
/-! SUPPORT. What each shared operation can do, said once: the accept, the end of a sink command, and a whole step. -/

namespace Sys2Proof.Machine

open Sys2Proof

theorem cmdReady_iff (s : State) : cmdReady s = true ↔ s.busy = false ∧ s.fault = .none := by
  simp [cmdReady]

/-- Every arm of `exec` is the accept of its command's direction and style. -/
theorem exec_eq_accept (i : Instr) (s : State) : exec i s = accept i.direction i.style s := by cases i <;> rfl

/-- An engine that is not ready leaves a presented command where it is (70_reset_and_hazards.md R205, 60_exceptions.md
R184). -/
theorem accept_held {d : Direction} {y : Style} {s : State} (h : cmdReady s = false) :
    accept d y s = .next s := by
  simp [accept, h]

/-- A ready engine with a legal configuration accepts every command (40_step_fsm.md R80). -/
theorem accept_ready {s : State} (d : Direction) (y : Style) (h : cmdReady s = true) (hc : s.cfg.legal = true) :
    ∃ l, drive s.cfg y (newPosition s.cfg.m d y s.pos.toNat) = some l ∧
      accept d y s = .next (latchStep (newPosition s.cfg.m d y s.pos.toNat) l s) := by
  obtain ⟨l, hl⟩ := drive_isSome hc y (newPosition_lt s.cfg.m d y s.pos.toNat)
  exact ⟨l, hl, by simp only [accept, if_pos h, hl]⟩

/-- What an accept that answers a next state did. -/
theorem accept_cases {d : Direction} {y : Style} {s t : State} (h : accept d y s = .next t) :
    (cmdReady s = false ∧ t = s) ∨
    (cmdReady s = true ∧ ∃ l, drive s.cfg y (newPosition s.cfg.m d y s.pos.toNat) = some l ∧
      t = latchStep (newPosition s.cfg.m d y s.pos.toNat) l s) := by
  by_cases hr : cmdReady s = true
  · rw [accept, if_pos hr] at h
    split at h
    · rename_i l hl
      exact .inr ⟨hr, l, hl, by cases h; rfl⟩
    · cases h
  · rw [accept, if_neg hr] at h
    exact .inl ⟨by simpa using hr, by cases h; rfl⟩

/-- The outstanding command is command `emit_idx` of the latched step (43_actuation_sink.md R165). -/
theorem outstanding_ok_iff {s : State} {k : Fin 6} {c : SinkCmd} :
    outstanding s = .ok (k, c) ↔
      s.emitIdx = k.castSucc ∧ ∃ l, s.lat = some l ∧ c = sinkCommand s.cfg.channels l k := by
  unfold outstanding
  split
  · rename_i h
    cases hl : s.lat with
    | none => simp
    | some l =>
      simp only [Except.ok.injEq, Prod.mk.injEq, Option.some.injEq, exists_eq_left']
      constructor
      · rintro ⟨rfl, rfl⟩
        exact ⟨rfl, rfl⟩
      · rintro ⟨hk, rfl⟩
        have : (⟨s.emitIdx.val, h⟩ : Fin 6) = k := Fin.ext (by simp [hk])
        subst this
        exact ⟨rfl, rfl⟩
  · rename_i h
    simp only [reduceCtorEq, false_iff, not_and]
    intro hk
    exact absurd (by rw [hk]; exact k.isLt) h

theorem outstanding_of {s : State} {k : Fin 6} {l : Latches} (hk : s.emitIdx = k.castSucc) (hl : s.lat = some l) :
    outstanding s = .ok (k, sinkCommand s.cfg.channels l k) := outstanding_ok_iff.2 ⟨hk, l, hl, rfl⟩

theorem endCommand_done_cases {s t : State} (h : endCommand .done s = .next t) :
    ∃ k c, outstanding s = .ok (k, c) ∧ t = sinkDone k c s := by
  unfold endCommand at h
  split at h
  · rename_i k c ho
    exact ⟨k, c, ho, by cases h; rfl⟩
  · cases h

theorem endCommand_err_cases {s t : State} (h : endCommand .err s = .next t) :
    ∃ k c, outstanding s = .ok (k, c) ∧ t = raiseSinkFault k c s := by
  unfold endCommand at h
  split at h
  · rename_i k c ho
    exact ⟨k, c, ho, by cases h; rfl⟩
  · cases h

/-- Everything a step that answers a next state can have done. -/
inductive Transition (s : State) : State → Prop
  /-- The presented command was accepted (40_step_fsm.md R80). -/
  | accepted (b : Byte) (rest : List HostEvent) (i : Instr) (l : Latches)
      (ready : cmdReady s = true) (presented : s.hostIn = .present b :: rest) (decoded : decode b = .ok i)
      (driven : drive s.cfg i.style (newPosition s.cfg.m i.direction i.style s.pos.toNat) = some l) :
      Transition s (latchStep (newPosition s.cfg.m i.direction i.style s.pos.toNat) l { s with hostIn := rest })
  /-- The outstanding sink command ended with `done` (43_actuation_sink.md R165). -/
  | done (rest : List SinkAnswer) (k : Fin 6) (l : Latches)
      (busy : s.busy = true) (answered : s.sinkIn = .done :: rest)
      (index : s.emitIdx = k.castSucc) (latched : s.lat = some l) :
      Transition s (sinkDone k (sinkCommand s.cfg.channels l k) { s with sinkIn := rest })
  /-- The outstanding sink command ended with `err` (60_exceptions.md R183). -/
  | err (rest : List SinkAnswer) (k : Fin 6) (l : Latches)
      (busy : s.busy = true) (answered : s.sinkIn = .err :: rest)
      (index : s.emitIdx = k.castSucc) (latched : s.lat = some l) :
      Transition s (raiseSinkFault k (sinkCommand s.cfg.channels l k) { s with sinkIn := rest })
  /-- The sink gave no answer in this step. -/
  | waited (rest : List SinkAnswer) (busy : s.busy = true) (answered : s.sinkIn = .wait :: rest) :
      Transition s { s with sinkIn := rest }
  /-- The host let this step pass. -/
  | paused (rest : List HostEvent) (ready : cmdReady s = true) (hosted : s.hostIn = .pause :: rest) :
      Transition s { s with hostIn := rest }
  /-- Nothing happened: no answer, no command, or a faulted engine. -/
  | still (h : (s.busy = true ∧ s.sinkIn = []) ∨ (s.busy = false ∧ (s.hostIn = [] ∨ s.fault ≠ .none))) :
      Transition s s

/-- The transition of a busy engine. -/
theorem step_busy {s : State} (h : s.busy = true) : step s = sinkTurn s := by
  have hr : cmdReady s = false := by simp [cmdReady, h]
  simp [step, takenWord, hr, otherTurn, h]

/-- The sink answers `done` to command `k` (43_actuation_sink.md R165). -/
theorem step_done {s : State} {k : Fin 6} {l : Latches} {rest : List SinkAnswer} (hb : s.busy = true)
    (hk : s.emitIdx = k.castSucc) (hl : s.lat = some l) (ha : s.sinkIn = .done :: rest) :
    step s = .next (sinkDone k (sinkCommand s.cfg.channels l k) { s with sinkIn := rest }) := by
  rw [step_busy hb, sinkTurn, ha]
  simp only [endCommand]
  rw [outstanding_of (s := { s with sinkIn := rest }) hk hl]

/-- The sink answers `err` to command `k` (60_exceptions.md R183). -/
theorem step_err {s : State} {k : Fin 6} {l : Latches} {rest : List SinkAnswer} (hb : s.busy = true)
    (hk : s.emitIdx = k.castSucc) (hl : s.lat = some l) (ha : s.sinkIn = .err :: rest) :
    step s = .next (raiseSinkFault k (sinkCommand s.cfg.channels l k) { s with sinkIn := rest }) := by
  rw [step_busy hb, sinkTurn, ha]
  simp only [endCommand]
  rw [outstanding_of (s := { s with sinkIn := rest }) hk hl]

/-- The transition of a faulted engine that is not busy: it stays (60_exceptions.md R184). -/
theorem step_faulted {s : State} (h : s.busy = false) (hf : s.fault ≠ .none) : step s = .next s := by
  have hr : cmdReady s = false := by simp [cmdReady, hf]
  simp [step, takenWord, hr, otherTurn, h, idleTurn]

/-- The transition of a ready engine to which a word is presented. -/
theorem step_presented {s : State} {b : Byte} {rest : List HostEvent} (hr : cmdReady s = true)
    (hh : s.hostIn = .present b :: rest) :
    step s = match decode b with
      | .ok i => exec i (dropWord s)
      | .error e => refuseWord e := by
  cases hd : decode b <;> simp [step, takenWord, hr, hh, hd]

/-- The transition of a ready engine whose host pauses. -/
theorem step_paused {s : State} {rest : List HostEvent} (hr : cmdReady s = true) (hh : s.hostIn = .pause :: rest) :
    step s = .next { s with hostIn := rest } := by
  have hb := ((cmdReady_iff s).1 hr).1
  simp [step, takenWord, hr, hh, otherTurn, hb, idleTurn]

/-- The transition of a ready engine whose host has nothing more to present. -/
theorem step_idle {s : State} (hr : cmdReady s = true) (hh : s.hostIn = []) : step s = .next s := by
  have hb := ((cmdReady_iff s).1 hr).1
  simp [step, takenWord, hr, hh, otherTurn, hb, idleTurn]

/-- The inversion of a step: every later proof about a step starts here. -/
theorem step_cases {s t : State} (h : step s = .next t) : Transition s t := by
  by_cases hb : s.busy = true
  · rw [step_busy hb] at h
    unfold sinkTurn at h
    split at h
    · rename_i ha
      cases h
      exact .still (.inl ⟨hb, ha⟩)
    · rename_i rest ha
      cases h
      exact .waited rest hb ha
    · rename_i rest ha
      obtain ⟨k, c, ho, rfl⟩ := endCommand_done_cases h
      obtain ⟨hk, l, hl, rfl⟩ := outstanding_ok_iff.1 ho
      exact .done rest k l hb ha hk hl
    · rename_i rest ha
      obtain ⟨k, c, ho, rfl⟩ := endCommand_err_cases h
      obtain ⟨hk, l, hl, rfl⟩ := outstanding_ok_iff.1 ho
      exact .err rest k l hb ha hk hl
  · have hb : s.busy = false := by simpa using hb
    by_cases hf : s.fault = .none
    · have hr := (cmdReady_iff s).2 ⟨hb, hf⟩
      rcases hh : s.hostIn with _ | ⟨⟨_ | b⟩, rest⟩
      · rw [step_idle hr hh] at h
        cases h
        exact .still (.inr ⟨hb, .inl hh⟩)
      · rw [step_paused hr hh] at h
        cases h
        exact .paused rest hr hh
      · rename_i b
        rw [step_presented hr hh] at h
        split at h
        · rename_i i hi
          rw [exec_eq_accept] at h
          rcases accept_cases h with ⟨hn, -⟩ | ⟨-, l, hl, rfl⟩
          · simp [hr] at hn
          · have := Transition.accepted b rest i l hr hh hi hl
            simpa [dropWord, hh] using this
        · rename_i e _
          cases e
          cases h
    · rw [step_faulted hb hf] at h
      cases h
      exact .still (.inr ⟨hb, .inr hf⟩)

/-- A completed sink command sets its channel to its content and leaves the others alone (43_actuation_sink.md
R163). -/
theorem effect_eq_write (c : SinkCmd) (m : Memory) :
    c.effect m = Memory.write m c.chan.toNat
      (match c with | .analogDuty _ v => .duty v | .digitalPin _ b => .pin b) := by
  cases c
  · exact setAnalogDuty_duty m _ _
  · rfl

theorem effect_read_other (c : SinkCmd) (m : Memory) {x : Nat} (hx : x ≠ c.chan.toNat) :
    Memory.read (c.effect m) x = Memory.read m x := by
  rw [effect_eq_write, Memory.read_write_other hx]

theorem effect_wf (c : SinkCmd) {m : Memory} (h : Memory.wf m) : Memory.wf (c.effect m) := by
  rw [effect_eq_write]
  exact Memory.write_wf h c.chan.isLt

theorem sinkDone_last {k : Fin 6} (c : SinkCmd) (s : State) (h : k.val = 5) :
    sinkDone k c s = completeStep (advanceEmission k c s) := by simp [sinkDone, h]

theorem sinkDone_inner {k : Fin 6} (c : SinkCmd) (s : State) (h : k.val ≠ 5) :
    sinkDone k c s = advanceEmission k c s := by simp [sinkDone, h]

/-- The fields of the two responses (30_encoding.md R65). -/
theorem respOk_fields : ∀ p : PosReg, respStatus (respOk p) = 0b00#2 ∧ respValue (respOk p) = p := by decide

theorem respSinkFault_fields : ∀ k : Fin 6, respStatus (respSinkFault k) = 0b10#2 ∧
    (respValue (respSinkFault k)).toNat = k.val := by decide

/-- `sinkDone` leaves everything but the emission and, for the sixth command, `busy` and the responses alone. -/
@[simp] theorem sinkDone_cfg (k : Fin 6) (c : SinkCmd) (s : State) : (sinkDone k c s).cfg = s.cfg := by
  simp only [sinkDone]; split <;> rfl
@[simp] theorem sinkDone_pos (k : Fin 6) (c : SinkCmd) (s : State) : (sinkDone k c s).pos = s.pos := by
  simp only [sinkDone]; split <;> rfl
@[simp] theorem sinkDone_lat (k : Fin 6) (c : SinkCmd) (s : State) : (sinkDone k c s).lat = s.lat := by
  simp only [sinkDone]; split <;> rfl
@[simp] theorem sinkDone_fault (k : Fin 6) (c : SinkCmd) (s : State) : (sinkDone k c s).fault = s.fault := by
  simp only [sinkDone]; split <;> rfl
@[simp] theorem sinkDone_emitIdx (k : Fin 6) (c : SinkCmd) (s : State) : (sinkDone k c s).emitIdx = k.succ := by
  simp only [sinkDone]; split <;> rfl
@[simp] theorem sinkDone_sink (k : Fin 6) (c : SinkCmd) (s : State) : (sinkDone k c s).sink = c.effect s.sink := by
  simp only [sinkDone]; split <;> rfl
@[simp] theorem sinkDone_hostIn (k : Fin 6) (c : SinkCmd) (s : State) : (sinkDone k c s).hostIn = s.hostIn := by
  simp only [sinkDone]; split <;> rfl
@[simp] theorem sinkDone_sinkIn (k : Fin 6) (c : SinkCmd) (s : State) : (sinkDone k c s).sinkIn = s.sinkIn := by
  simp only [sinkDone]; split <;> rfl
@[simp] theorem sinkDone_sinkTrace (k : Fin 6) (c : SinkCmd) (s : State) :
    (sinkDone k c s).sinkTrace = s.sinkTrace ++ [(c.word, .done)] := by
  simp only [sinkDone]; split <;> rfl
@[simp] theorem sinkDone_freeDraws (k : Fin 6) (c : SinkCmd) (s : State) :
    (sinkDone k c s).freeDraws = s.freeDraws := by
  simp only [sinkDone]; split <;> rfl

end Sys2Proof.Machine
end

