-- ==== Sys2Proof/Laws/PerInstr.lean ====
section
/-! SUPPORT. Statements about every command, one lemma per constructor. -/

namespace Sys2Proof.Laws.RoundTrip

open Sys2Proof

/-- The command is well formed, and its word and its transported byte decode to it (30_encoding.md R60 to R64). -/
def Statement (i : Instr) : Prop :=
  i.wellFormed = true ∧ decodeWord (encode i) = i ∧ decode (encodeByte i) = .ok i

theorem stepFSingle : Statement .stepFSingle := ⟨rfl, by decide, by rfl⟩
theorem stepBSingle : Statement .stepBSingle := ⟨rfl, by decide, by rfl⟩
theorem stepFDouble : Statement .stepFDouble := ⟨rfl, by decide, by rfl⟩
theorem stepBDouble : Statement .stepBDouble := ⟨rfl, by decide, by rfl⟩
theorem stepFInterleave : Statement .stepFInterleave := ⟨rfl, by decide, by rfl⟩
theorem stepBInterleave : Statement .stepBInterleave := ⟨rfl, by decide, by rfl⟩
theorem stepFMicrostep : Statement .stepFMicrostep := ⟨rfl, by decide, by rfl⟩
theorem stepBMicrostep : Statement .stepBMicrostep := ⟨rfl, by decide, by rfl⟩

end Sys2Proof.Laws.RoundTrip
end

