-- ==== Sys2Proof/Laws/Run.lean ====
section
/-! SUPPORT. Runs of several transitions, cut into their parts, and the schedules of a sink that answers. -/

namespace Sys2Proof.Machine

open Sys2Proof

@[simp] theorem runSteps_zero (s : State) : runSteps 0 s = .next s := rfl

theorem core_run_succ_next (M : Host.Core) (n : Nat) {s t : M.State} (h : M.step s = .next t) :
    M.run (n + 1) s = M.run n t := by
  rw [Host.Core.run, h]

theorem core_run_succ_fault (M : Host.Core) (n : Nat) {s : M.State} {f : M.Fault} (h : M.step s = .fault f) :
    M.run (n + 1) s = .fault f := by
  rw [Host.Core.run, h]

theorem core_run_succ_refused (M : Host.Core) (n : Nat) {s : M.State} {r : M.Refusal} (h : M.step s = .refused r) :
    M.run (n + 1) s = .refused r := by
  rw [Host.Core.run, h]

/-- A run begins with one step. -/
theorem runSteps_succ (n : Nat) (s : State) :
    runSteps (n + 1) s = match step s with
      | .next t => runSteps n t
      | .fault f => .fault f
      | .refused r => .refused r := by
  rcases h : step s with t | f | r
  · exact core_run_succ_next core n h
  · exact core_run_succ_fault core n h
  · exact core_run_succ_refused core n h

theorem runSteps_succ_next {n : Nat} {s t : State} (h : step s = .next t) :
    runSteps (n + 1) s = runSteps n t := by
  rw [runSteps_succ, h]

theorem runSteps_succ_inv {n : Nat} {s u : State} (h : runSteps (n + 1) s = .next u) :
    ∃ t, step s = .next t ∧ runSteps n t = .next u := by
  rw [runSteps_succ] at h
  split at h
  · exact ⟨_, ‹_›, h⟩
  · cases h
  · cases h

/-- Two runs one after the other are one run. -/
theorem runSteps_add {a b : Nat} {s t : State} (h : runSteps a s = .next t) :
    runSteps (a + b) s = runSteps b t := by
  induction a generalizing s with
  | zero => cases h; rw [Nat.zero_add]
  | succ a ih =>
    obtain ⟨u, hu, hr⟩ := runSteps_succ_inv h
    rw [Nat.succ_add, runSteps_succ_next hu, ih hr]

/-- THE INDUCTION OVER RUNS: what every step keeps, every run keeps. -/
theorem runSteps_keeps {P : State → Prop} (hstep : ∀ s t, P s → step s = .next t → P t) {n : Nat} {s t : State}
    (hs : P s) (h : runSteps n s = .next t) : P t := by
  induction n generalizing s with
  | zero => cases h; exact hs
  | succ n ih =>
    obtain ⟨u, hu, hr⟩ := runSteps_succ_inv h
    exact ih (hstep s u hs hu) hr

/-- A relation that every step keeps and that composes holds along every run. -/
theorem runSteps_relates {R : State → State → Prop} (hrefl : ∀ s, R s s)
    (htrans : ∀ s t u, R s t → R t u → R s u) (hstep : ∀ s t, step s = .next t → R s t) {n : Nat} {s t : State}
    (h : runSteps n s = .next t) : R s t := by
  induction n generalizing s with
  | zero => cases h; exact hrefl _
  | succ n ih =>
    obtain ⟨u, hu, hr⟩ := runSteps_succ_inv h
    exact htrans s u t (hstep s u hu) (ih hr)

/-- A busy engine lets the sink's waits pass, whatever the delay (70_reset_and_hazards.md R210). -/
theorem runSteps_waits {s : State} (d : Nat) (rest : List SinkAnswer) (hb : s.busy = true)
    (h : s.sinkIn = List.replicate d .wait ++ rest) : runSteps d s = .next { s with sinkIn := rest } := by
  induction d generalizing s with
  | zero => cases s; simp at h; simp [h]
  | succ d ih =>
    have hs : step s = .next { s with sinkIn := List.replicate d .wait ++ rest } := by
      rw [step_busy hb, sinkTurn, h]
      rfl
    rw [runSteps_succ_next hs]
    exact ih hb rfl

/-- A ready engine lets the pauses of the host pass (60_exceptions.md R197). -/
theorem runSteps_pauses {s : State} (n : Nat) (rest : List HostEvent) (hr : cmdReady s = true)
    (h : s.hostIn = List.replicate n .pause ++ rest) : runSteps n s = .next { s with hostIn := rest } := by
  induction n generalizing s with
  | zero => cases s; simp at h; simp [h]
  | succ n ih =>
    rw [runSteps_succ_next (step_paused hr (rest := List.replicate n .pause ++ rest) (by rw [h]; rfl))]
    exact ih hr rfl

/-- A step that leaves the state as it is can be repeated for ever. -/
theorem runSteps_still {s : State} (h : step s = .next s) (n : Nat) : runSteps n s = .next s := by
  induction n with
  | zero => rfl
  | succ n ih => rw [runSteps_succ_next h, ih]

/-- A completed sink command leaves its content on its channel. -/
theorem effect_read (c : SinkCmd) {m : Memory} (hm : Memory.wf m) :
    Memory.read (c.effect m) c.chan.toNat = c.content := by
  rw [effect_eq_write, Memory.read_write_same hm]
  cases c <;> rfl

theorem legal_channels_distinct {c : EngineConfig} (h : c.legal = true) : (channelNumbers c.channels).Nodup := by
  simp only [EngineConfig.legal, channelsOk, channelsDistinct, Bool.and_eq_true, decide_eq_true_eq] at h
  exact h.2.2

theorem sinkCommand_chan_mem (ch : ChannelMap) (l : Latches) (k : Fin 6) :
    (sinkCommand ch l k).chan.toNat ∈ channelNumbers ch := by
  fin_cases k <;> simp [sinkCommand, SinkCmd.chan, channelNumbers]

/-- With six distinct channels two sink commands of one step address two channels (00_scope.md R9). -/
theorem sinkCommand_chan_ne {ch : ChannelMap} (h : (channelNumbers ch).Nodup) (l : Latches) {j k : Fin 6}
    (hjk : j ≠ k) : (sinkCommand ch l j).chan.toNat ≠ (sinkCommand ch l k).chan.toNat := by
  simp only [channelNumbers, List.nodup_cons, List.mem_cons, List.not_mem_nil, or_false, not_or] at h
  fin_cases j <;> fin_cases k <;> first
    | exact absurd rfl hjk
    | (simp only [sinkCommand, SinkCmd.chan]; tauto)

end Sys2Proof.Machine
end

