-- ==== Sys2Proof/Tests/Slice0.lean ====
section
/-! SUPPORT. The model's own tests: single steps against the vectors of 95_test_vectors.md, decoding of words written
out from 30_encoding.md R60, the smoke tests of the construction checks, and a witness for the hypotheses of every
statement. -/

namespace Sys2Proof.Machine.Tests

open Sys2Proof Sys2Proof.Machine

-- HELPERS

/-- The default configuration of each `M` over the example channel map (vectors K1 and K2). -/
def cfgOf : PhaseWidth → EngineConfig
  | .m16 => Config.resetArgs.config .m16
  | .m8 => { Config.resetArgs with m := 8, curve := Config.defaultCurve8 }.config .m8

/-- An idle engine at position `p`. -/
def idleAt (m : PhaseWidth) (p : PosReg) : State := { State.constructed (cfgOf m) [] with pos := p }

/-- What an accept wrote: position, duties and mask. -/
def written (o : Host.Outcome State Fault Refusal) : Option (Nat × Option (Nat × Nat × Nat)) :=
  match o with
  | .next t => some (t.pos.toNat, t.lat.map fun l => (l.a.toNat, l.b.toNat, l.mask.toNat))
  | .fault _ => none
  | .refused _ => none

/-- A property of the next state. -/
def nextIs (o : Host.Outcome State Fault Refusal) (p : State → Bool) : Bool :=
  match o with
  | .next t => p t
  | .fault _ => false
  | .refused _ => false

/-- `M = 16`, after `STEP F, SINGLE` from 0 (vector T01), with the sink commands before `k` done. -/
def busyAt (k : Fin 6) : State :=
  { idleAt .m16 16#6 with
    busy := true, lat := some ⟨4080#12, 4080#12, 0x2#4⟩, emitIdx := k.castSucc,
    sink := [(0, .duty 4080#12), (1, .duty 4080#12), (2, .pin false), (3, .pin true), (4, .pin false)].take k.val }

/-- The same engine after its sink command `k` failed. -/
def faultedAt (k : Fin 6) : State :=
  { busyAt k with busy := false, fault := .sinkFault k, responses := [respSinkFault k] }

-- DECODING (30_encoding.md R60: style in bits 2 and 1, direction in bit 0)

theorem test_decode_stepFSingle : decode 0b00000000#8 = .ok .stepFSingle := by rfl
theorem test_decode_stepBSingle : decode 0b00000001#8 = .ok .stepBSingle := by rfl
theorem test_decode_stepFDouble : decode 0b00000010#8 = .ok .stepFDouble := by rfl
theorem test_decode_stepBDouble : decode 0b00000011#8 = .ok .stepBDouble := by rfl
theorem test_decode_stepFInterleave : decode 0b00000100#8 = .ok .stepFInterleave := by rfl
theorem test_decode_stepBInterleave : decode 0b00000101#8 = .ok .stepBInterleave := by rfl
theorem test_decode_stepFMicrostep : decode 0b00000110#8 = .ok .stepFMicrostep := by rfl
theorem test_decode_stepBMicrostep : decode 0b00000111#8 = .ok .stepBMicrostep := by rfl
theorem test_decode_wide_word : decode 0b00001000#8 = .error (.wideCommandWord 8#8) := by rfl
theorem test_table_word : decodeTableWord 8 6 = some .stepFMicrostep ∧ decodeTableWord 8 8 = none ∧
    decodeTableWord 16 256 = none := by decide

-- CONSTRUCTION CHECKS (each ill-formed argument is refused by its check)

theorem smoke_every_command : Instr.stepFSingle.wellFormed = true := by decide
theorem smoke_phaseWidth : phaseWidthOk 12 = false ∧ phaseWidthOk 8 = true ∧ phaseWidthOk 16 = true := by decide
/-- K4: `M = 16` with a 9-entry table. -/
theorem smoke_curveLength : curveLengthOk 16 Config.defaultCurve8 = false := by decide
theorem smoke_curveEntries : curveEntriesOk [0, 256] = false := by decide
theorem smoke_curveMonotone : curveMonotone 8 [0, 50, 98, 142, 141, 212, 236, 250, 255] = false := by decide
theorem smoke_curveEnds : curveEndsOk 8 [1, 50, 98, 142, 180, 212, 236, 250, 255] = false ∧
    curveEndsOk 8 [0, 50, 98, 142, 180, 212, 236, 250, 254] = false := by decide
theorem smoke_curveScenario : curveScenarioOk 16
    [0, 24, 50, 74, 98, 120, 141, 162, 180, 197, 212, 225, 236, 244, 250, 253, 255] = false := by decide
theorem smoke_channelsInRange : channelsInRange { Config.resetArgs with chPin3 := 16 } = false := by decide
/-- K5: `CH_A = CH_B = 0`. -/
theorem smoke_channelsDistinct : channelsDistinct { Config.resetArgs with chB := 0 } = false := by decide
/-- A sink that is not ready on channel 5. -/
theorem smoke_sinkReady : sinkReadyOn Config.resetArgs [0, 1, 2, 3, 4] = false ∧
    launch Config.resetArgs [] [0, 1, 2, 3, 4] = .refused .sinkReadyPremise := ⟨by decide, rfl⟩
theorem smoke_default_tables : curveOk 16 Config.defaultCurve16 = true ∧ curveOk 8 Config.defaultCurve8 = true := by
  decide
/-- K3: `M = 12` is a CONFIGURATION_ERROR. -/
theorem test_construct_twelve :
    construct { Config.resetArgs with m := 12 } [] = .fault (.configurationError 12) := rfl

-- ONE STEP OF EACH COMMAND (95_test_vectors.md section 2.2; the vector's number in each comment)

/-- T04, T11. -/
theorem test_stepFSingle : written (exec .stepFSingle (idleAt .m16 13#6)) = some (21, some (4080, 4080, 2)) ∧
    written (exec .stepFSingle (idleAt .m8 30#6)) = some (2, some (4080, 4080, 1)) := by decide
/-- T13, T19. -/
theorem test_stepBSingle : written (exec .stepBSingle (idleAt .m16 5#6)) = some (53, some (4080, 4080, 8)) ∧
    written (exec .stepBSingle (idleAt .m8 4#6)) = some (0, some (4080, 4080, 1)) := by decide
/-- T26, T28. -/
theorem test_stepFDouble : written (exec .stepFDouble (idleAt .m16 63#6)) = some (15, some (4080, 4080, 3)) ∧
    written (exec .stepFDouble (idleAt .m8 4#6)) = some (12, some (4080, 4080, 6)) := by decide
/-- T32, T35. -/
theorem test_stepBDouble : written (exec .stepBDouble (idleAt .m16 9#6)) = some (57, some (4080, 4080, 9)) ∧
    written (exec .stepBDouble (idleAt .m8 0#6)) = some (28, some (4080, 4080, 9)) := by decide
/-- T39, T42. -/
theorem test_stepFInterleave : written (exec .stepFInterleave (idleAt .m16 60#6)) = some (4, some (4080, 4080, 1)) ∧
    written (exec .stepFInterleave (idleAt .m8 28#6)) = some (0, some (4080, 4080, 1)) := by decide
/-- T47, T49. -/
theorem test_stepBInterleave : written (exec .stepBInterleave (idleAt .m16 33#6)) = some (25, some (4080, 4080, 6)) ∧
    written (exec .stepBInterleave (idleAt .m8 2#6)) = some (30, some (4080, 4080, 9)) := by decide
/-- T50 (source-fixed entries), T57 (wrap), T52 (needs the default table, GK1). -/
theorem test_stepFMicrostep : written (exec .stepFMicrostep (idleAt .m16 0#6)) = some (1, some (4048, 400, 3)) ∧
    written (exec .stepFMicrostep (idleAt .m16 63#6)) = some (0, some (4080, 0, 3)) ∧
    written (exec .stepFMicrostep (idleAt .m16 20#6)) = some (21, some (1920, 3600, 6)) := by decide
/-- T64, T67 (source-fixed entries), T69 (needs the default table, GK1). -/
theorem test_stepBMicrostep : written (exec .stepBMicrostep (idleAt .m16 16#6)) = some (15, some (400, 4048, 3)) ∧
    written (exec .stepBMicrostep (idleAt .m16 48#6)) = some (47, some (400, 4048, 12)) ∧
    written (exec .stepBMicrostep (idleAt .m8 0#6)) = some (31, some (4000, 800, 9)) := by decide

-- THE SINK AND THE RESPONSES

/-- The sink words of E1, as the engine shows them one after the other. -/
theorem test_sink_words : (List.finRange 6).map (fun k => snkWord (busyAt k)) =
    [some 0x00FF0#17, some 0x01FF0#17, some 0x12000#17, some 0x13001#17, some 0x14000#17, some 0x15000#17] := by decide
/-- E1's response 0x10, sent when command 5 is done. -/
theorem test_sixth_done : nextIs (step { busyAt 5 with sinkIn := [.done] }) (fun t =>
    t.responses == [0x10#8] && !t.busy && t.emitIdx == 6) = true := by decide
/-- F3: command 3 fails; pos stays 16, ch0 to ch2 are written, the response is 0x83. -/
theorem test_sink_fault_three : nextIs (step { busyAt 3 with sinkIn := [.err] }) (fun t =>
    t.pos == 16#6 && t.responses == [0x83#8] && decide (t.fault = .sinkFault 3) && !cmdReady t &&
    decide (Memory.read t.sink 0 = .duty 4080#12) && decide (Memory.read t.sink 2 = .pin false)) = true := by decide
/-- Section 2.4: while two commands are done the next word is held, and `pos` stays. -/
theorem test_busy_hold : nextIs (step { busyAt 2 with sinkIn := [.done], hostIn := [.present 6#8] }) (fun t =>
    decide (t.hostIn = [.present 6#8]) && t.pos == 16#6 && decide (t.responses = [])) = true := by decide
/-- A duty above 4095 is clamped by the sink (43_actuation_sink.md R163). -/
theorem test_clamp : Memory.read (setAnalogDuty [] 0#4 4096) 0 = .fullyOn := by decide

-- THE ASSEMBLER (30_encoding.md R66)

theorem test_assembler_forms :
    parseLine ['s', 't', 'e', 'p', ' ', 'f', 'o', 'r', 'w', 'a', 'r', 'd', ',', 's', 'i', 'n', 'g', 'l', 'e'] =
      some (some .stepFSingle) ∧
    parseLine ['s', 't', 'e', 'p', '(', 'B', ',', ' ', 'D', 'o', 'u', 'b', 'l', 'e', ')', ' ', ';', 'x', '1'] =
      some (some .stepBDouble) ∧
    parseLine [';', ' ', 'n'] = some none := by decide
/-- R67: no release command. -/
theorem test_assembler_refuses : parseLine ['R', 'E', 'L', 'E', 'A', 'S', 'E'] = none := by decide

-- STATES WITH THE INVARIANT

theorem cfgOf_legal (m : PhaseWidth) : (cfgOf m).legal = true := by cases m <;> decide

/-- An idle engine that has not stepped yet, whatever its channels to host and sink will bring. -/
theorem idle_engineInv (m : PhaseWidth) (hostIn : List HostEvent) (sinkIn : List SinkAnswer) :
    EngineInv { idleAt m 0#6 with hostIn := hostIn, sinkIn := sinkIn } where
  cfgLegal := cfgOf_legal m
  posInCycle := by show (0#6).toNat < (cfgOf m).m.cycle; cases m <;> decide
  sinkCanonical := Memory.wf_nil
  busyOutstanding := fun h => by cases h
  faultIndex := fun _ h => by cases h
  unlatchedStart := fun _ => rfl
  latchesMatch := fun _ h => by cases h
  delivered := fun _ h => by cases h
  responsesMatch := fun _ h => by cases h

theorem busyAt_sinkCanonical : ∀ k : Fin 6, Memory.wf (busyAt k).sink := by decide

theorem busyAt_delivered : ∀ k j : Fin 6, j.val < k.val →
    Memory.read (busyAt k).sink (sinkCommand (cfgOf .m16).channels ⟨4080#12, 4080#12, 0x2#4⟩ j).chan.toNat =
      (sinkCommand (cfgOf .m16).channels ⟨4080#12, 4080#12, 0x2#4⟩ j).content := by decide

/-- A busy engine with `k` sink commands done. -/
theorem busy_engineInv (k : Fin 6) (hostIn : List HostEvent) (sinkIn : List SinkAnswer) :
    EngineInv { busyAt k with hostIn := hostIn, sinkIn := sinkIn } where
  cfgLegal := cfgOf_legal .m16
  posInCycle := by show (16#6).toNat < PhaseWidth.m16.cycle; decide
  sinkCanonical := busyAt_sinkCanonical k
  busyOutstanding := fun _ => ⟨k.isLt, rfl, rfl⟩
  faultIndex := fun _ h => by cases h
  unlatchedStart := fun h => by cases h
  latchesMatch := fun l h => by
    cases h
    exact ⟨.single, by show drive (cfgOf .m16) .single 16 = _; decide⟩
  delivered := fun l h => by
    cases h
    exact fun j hj => busyAt_delivered k j hj
  responsesMatch := fun _ h => by cases h

/-- A faulted engine whose sink command `k` failed. -/
theorem faulted_engineInv (k : Fin 6) : EngineInv (faultedAt k) where
  cfgLegal := cfgOf_legal .m16
  posInCycle := by show (16#6).toNat < PhaseWidth.m16.cycle; decide
  sinkCanonical := busyAt_sinkCanonical k
  busyOutstanding := fun h => by cases h
  faultIndex := fun j h => by cases h; rfl
  unlatchedStart := fun h => by cases h
  latchesMatch := fun l h => by
    cases h
    exact ⟨.single, by show drive (cfgOf .m16) .single 16 = _; decide⟩
  delivered := fun l h => by
    cases h
    exact fun j hj => busyAt_delivered k j hj
  responsesMatch := ⟨[], rfl, fun _ h => by cases h⟩

-- WITNESSES: a state and operands that meet all the hypotheses of each statement

/-- An idle engine at the last position of the `M = 8` cycle; it meets the hypotheses of the result statements. -/
theorem witness_results : (idleAt .m8 31#6).cfg.legal = true ∧ (idleAt .m8 31#6).busy = false ∧
    (idleAt .m8 31#6).fault = .none := by decide

theorem witness_StepForwardSingleResult : State.reset.busy = false ∧ State.reset.fault = .none := by decide
theorem witness_StepBackwardSingleResult : (idleAt .m8 3#6).busy = false ∧ (idleAt .m8 3#6).fault = .none := by decide
theorem witness_StepForwardDoubleResult : (idleAt .m8 28#6).busy = false ∧ (idleAt .m8 28#6).fault = .none := by decide
theorem witness_StepBackwardDoubleResult : (idleAt .m16 8#6).busy = false ∧ (idleAt .m16 8#6).fault = .none := by decide
theorem witness_StepForwardInterleaveResult :
    (idleAt .m16 60#6).busy = false ∧ (idleAt .m16 60#6).fault = .none := by decide
theorem witness_StepBackwardInterleaveResult :
    (idleAt .m16 4#6).busy = false ∧ (idleAt .m16 4#6).fault = .none := by decide
theorem witness_StepForwardMicrostepResult : (idleAt .m16 63#6).cfg.legal = true ∧ (idleAt .m16 63#6).busy = false ∧
    (idleAt .m16 63#6).fault = .none := by decide
theorem witness_StepBackwardMicrostepResult : (idleAt .m8 0#6).cfg.legal = true ∧ (idleAt .m8 0#6).busy = false ∧
    (idleAt .m8 0#6).fault = .none := by decide

theorem witness_DecodeAndEncodeAgree : Instr.stepBMicrostep.wellFormed = true ∧ decode 7#8 = .ok .stepBMicrostep :=
  ⟨rfl, rfl⟩
theorem witness_WideWordsAreRefused : cmdReady { idleAt .m16 0#6 with hostIn := [.present 8#8] } = true ∧
    (8 : Nat) ≤ (8#8 : Byte).toNat ∧ (8 : Nat) ≤ (255#8 : Byte).toNat := by decide
theorem witness_StepRunsDecodedCommand : (presentByte 3#8 (idleAt .m16 0#6)).busy = false ∧
    (presentByte 3#8 (idleAt .m16 0#6)).fault = .none ∧
    (presentByte 3#8 (idleAt .m16 0#6)).hostIn = .present 3#8 :: [] ∧ decode 3#8 = .ok .stepBDouble :=
  ⟨rfl, rfl, rfl, rfl⟩
theorem witness_PlacedWordRunsNext : State.reset.busy = false ∧ State.reset.fault = .none := by decide

theorem witness_AcceptFrame : ∃ t, exec .stepBDouble (idleAt .m16 9#6) = .next t :=
  ⟨_, rfl⟩
theorem witness_NoCommandStopsByItself : EngineInv { idleAt .m8 0#6 with hostIn := [], sinkIn := [] } :=
  idle_engineInv .m8 [] []
theorem witness_OnlyMicrostepReadsTheCurve : Instr.stepFDouble.style ≠ .microstep ∧
    cmdReady (idleAt .m16 8#6) = true ∧ ∃ t, exec .stepFDouble (idleAt .m16 8#6) = .next t :=
  ⟨by decide, rfl, _, rfl⟩
/-- Two engines with different pasts: a fresh one at 16, and one that has completed a step there. -/
theorem witness_CommandsKeepNoHistory : cmdReady (idleAt .m16 16#6) = true ∧
    cmdReady { busyAt 5 with busy := false, emitIdx := 6 } = true ∧
    { busyAt 5 with busy := false, emitIdx := 6 }.cfg = (idleAt .m16 16#6).cfg ∧
    { busyAt 5 with busy := false, emitIdx := 6 }.pos = (idleAt .m16 16#6).pos ∧
    (∃ t, exec .stepFSingle (idleAt .m16 16#6) = .next t) ∧
    ∃ v, exec .stepFSingle { busyAt 5 with busy := false, emitIdx := 6 } = .next v :=
  ⟨rfl, rfl, rfl, rfl, ⟨_, rfl⟩, ⟨_, rfl⟩⟩

theorem witness_OctantsAreBitSlices : (31#6 : PosReg).toNat < 32 ∧ 31 < 4 * PhaseWidth.m8.val ∧
    63 < 4 * PhaseWidth.m16.val := by decide
theorem witness_WrapIsLowBitsOfTheAdd : 31 < 4 * PhaseWidth.m8.val ∧ 63 < 4 * PhaseWidth.m16.val := by decide
/-- One position for each row, at the row's first or last value, with its value from 95_test_vectors.md T57, T51, T66, T68
and T63. -/
theorem witness_CurveLookupRows : (cfgOf .m16).legal = true ∧
    curveLookup (cfgOf .m16) 0 = some (255#8, 0#8) ∧ curveLookup (cfgOf .m16) 16 = some (0#8, 255#8) ∧
    curveLookup (cfgOf .m16) 31 = some (253#8, 25#8) ∧ curveLookup (cfgOf .m16) 47 = some (25#8, 253#8) ∧
    curveLookup (cfgOf .m16) 48 = some (0#8, 255#8) ∧ curveLookup (cfgOf .m16) 63 = some (253#8, 25#8) := by decide
theorem witness_BoundaryMagnitudes : (cfgOf .m8).legal = true ∧ (cfgOf .m16).legal = true := by decide
theorem witness_MidQuadrantAndSlopes : (cfgOf .m8).legal = true ∧ 6 + 1 < (cfgOf .m8).m.val ∧
    (∃ a b, curveLookup (cfgOf .m8) 6 = some (a, b)) ∧ ∃ a b, curveLookup (cfgOf .m8) 7 = some (a, b) :=
  ⟨by decide, by decide, ⟨_, _, rfl⟩, ⟨_, _, rfl⟩⟩
theorem witness_MaskTableLaws : (0x1#4 : Mask) ∈ octTable ∧ (0x9#4 : Mask) ∈ quadTable := by decide
theorem witness_StyleAttractors : (idleAt .m16 8#6).busy = false ∧ (idleAt .m16 8#6).fault = .none ∧
    (∃ t, exec .stepFSingle (idleAt .m16 8#6) = .next t) ∧ (∃ t, exec .stepBDouble (idleAt .m16 8#6) = .next t) ∧
    Instr.stepFSingle.style = .single ∧ Instr.stepBDouble.style = .double ∧ 63 < 4 * PhaseWidth.m16.val :=
  ⟨rfl, rfl, ⟨_, rfl⟩, ⟨_, rfl⟩, rfl, rfl, by decide⟩
/-- Double from position 0 (an even octant, E6): forward to 4 with `M = 8`, then back from 4 in an engine at 4. -/
theorem witness_BackwardUndoesForward : EngineInv { idleAt .m8 0#6 with hostIn := [], sinkIn := [] } ∧
    cmdReady (idleAt .m8 0#6) = true ∧
    (∃ t, exec (Instr.ofFields .forward .double) (idleAt .m8 0#6) = .next t ∧ (idleAt .m8 4#6).pos = t.pos) ∧
    cmdReady (idleAt .m8 4#6) = true ∧ (idleAt .m8 4#6).cfg = (idleAt .m8 0#6).cfg ∧
    ∃ v, exec (Instr.ofFields .backward .double) (idleAt .m8 4#6) = .next v ∧ v.pos = 28#6 :=
  ⟨idle_engineInv .m8 [] [], rfl, ⟨_, rfl, rfl⟩, rfl, rfl, ⟨_, rfl, rfl⟩⟩
theorem witness_CycleClosure : 4 < 4 * PhaseWidth.m8.val ∧ octant .m8 4 % 2 = 1 ∧ octant .m8 0 % 2 = 0 ∧ 1 ≤ 4 := by
  decide
theorem witness_PositionOutput : EngineInv { idleAt .m8 0#6 with hostIn := [], sinkIn := [] } ∧
    { idleAt .m8 0#6 with hostIn := [], sinkIn := [] }.cfg.m = .m8 := ⟨idle_engineInv .m8 [] [], rfl⟩

theorem witness_SinkWordLayout : snkWord (busyAt 3) = some 0x13001#17 := by decide
theorem witness_SinkEffects : Memory.wf (busyAt 5).sink ∧ EngineInv { busyAt 5 with hostIn := [], sinkIn := [] } ∧
    { busyAt 5 with hostIn := [], sinkIn := [] }.lat = some ⟨4080#12, 4080#12, 0x2#4⟩ :=
  ⟨busyAt_sinkCanonical 5, busy_engineInv 5 [] [], rfl⟩
theorem witness_RepeatedSinkCommandChangesNothing : Memory.wf (busyAt 4).sink := busyAt_sinkCanonical 4
/-- The first and the last command, with each answer. -/
theorem witness_EmissionProgress : ∀ k : Fin 6, ∀ a : List SinkAnswer, a = [.done] ∨ a = [.err] →
    { busyAt k with sinkIn := a }.busy = true ∧ { busyAt k with sinkIn := a }.emitIdx = k.castSucc ∧
    { busyAt k with sinkIn := a }.lat = some ⟨4080#12, 4080#12, 0x2#4⟩ ∧ { busyAt k with sinkIn := a }.sinkIn = a :=
  fun _ _ _ => ⟨rfl, rfl, rfl, rfl⟩
theorem witness_SinkCommandFrame : { busyAt 5 with sinkIn := [.done] }.busy = true ∧
    { busyAt 5 with sinkIn := [.done] }.emitIdx = (5 : Fin 6).castSucc ∧
    { busyAt 5 with sinkIn := [.done] }.lat = some ⟨4080#12, 4080#12, 0x2#4⟩ ∧ Memory.wf (busyAt 5).sink ∧
    ∃ t, step { busyAt 5 with sinkIn := [.done] } = .next t :=
  ⟨rfl, rfl, rfl, busyAt_sinkCanonical 5, _, rfl⟩
theorem witness_SixthCompletionAnswersPosition : EngineInv { busyAt 5 with hostIn := [], sinkIn := [.done] } ∧
    { busyAt 5 with hostIn := [], sinkIn := [.done] }.busy = true ∧
    { busyAt 5 with hostIn := [], sinkIn := [.done] }.emitIdx = 5 := ⟨busy_engineInv 5 [] [.done], rfl, rfl⟩
theorem witness_OkResponseMeansAllSixDelivered : EngineInv { busyAt 5 with hostIn := [], sinkIn := [.done] } ∧
    (∃ t, step { busyAt 5 with hostIn := [], sinkIn := [.done] } = .next t ∧ t.responses = [] ++ [0x10#8]) ∧
    respStatus 0x10#8 = 0b00#2 := ⟨busy_engineInv 5 [] [.done], ⟨_, rfl, rfl⟩, rfl⟩
theorem witness_OneCodedResponsePerCommand : EngineInv { busyAt 5 with hostIn := [], sinkIn := [.done] } ∧
    (∃ t, step { busyAt 5 with hostIn := [], sinkIn := [.done] } = .next t) ∧
    EngineInv (faultedAt 3) ∧ 0x83#8 ∈ (faultedAt 3).responses :=
  ⟨busy_engineInv 5 [] [.done], ⟨_, rfl⟩, faulted_engineInv 3, by decide⟩
theorem witness_SinkFaultEntry : ∀ k : Fin 6, EngineInv { busyAt k with hostIn := [], sinkIn := [.err] } ∧
    { busyAt k with hostIn := [], sinkIn := [.err] }.busy = true ∧
    { busyAt k with hostIn := [], sinkIn := [.err] }.emitIdx = k.castSucc ∧
    { busyAt k with hostIn := [], sinkIn := [.err] }.lat = some ⟨4080#12, 4080#12, 0x2#4⟩ :=
  fun k => ⟨busy_engineInv k [] [.err], rfl, rfl, rfl⟩
theorem witness_FaultedEngineAcceptsNothing : EngineInv (faultedAt 0) ∧ (faultedAt 0).fault = .sinkFault 0 :=
  ⟨faulted_engineInv 0, rfl⟩
/-- A silent sink, and one whose list holds only waits. -/
theorem witness_SilentSinkWaitsForever : (busyAt 2).busy = true ∧ (busyAt 2).sinkIn = List.replicate 0 .wait ∧
    { busyAt 2 with sinkIn := List.replicate 3 .wait }.busy = true := ⟨rfl, rfl, rfl⟩
/-- Two commands of six done, four answers to come, a microstep held (95_test_vectors.md section 2.4). -/
theorem witness_BusyHoldUntilCompletion :
    EngineInv { busyAt 2 with hostIn := [.present 6#8], sinkIn := doneAfter [0, 1, 0, 2] ++ [] } ∧
    (busyAt 2).busy = true ∧ (6#8 : Byte) = encodeByte .stepFMicrostep ∧
    [0, 1, 0, 2].length + (busyAt 2).emitIdx.val = 6 ∧ (faultedAt 1).fault ≠ .none :=
  ⟨busy_engineInv 2 _ _, rfl, rfl, rfl, by decide⟩
/-- A state no run reaches: busy, with nothing latched. -/
theorem witness_UnwrittenLatchesAreNeverRead : { busyAt 0 with lat := none, sinkIn := [.done] }.busy = true ∧
    { busyAt 0 with lat := none, sinkIn := [.done] }.emitIdx.val < 6 ∧ SinkAnswer.done ≠ .wait ∧
    EngineInv { busyAt 0 with hostIn := [], sinkIn := [.done] } :=
  ⟨rfl, by decide, by decide, busy_engineInv 0 [] [.done]⟩
/-- Pauses with nothing after them, and pauses before a command. -/
theorem witness_IdleEngineChangesNothing :
    cmdReady { idleAt .m16 0#6 with hostIn := List.replicate 3 .pause } = true ∧
    { idleAt .m16 0#6 with hostIn := List.replicate 3 .pause }.hostIn = List.replicate 3 .pause ∧
    cmdReady { idleAt .m16 0#6 with hostIn := [.pause, .pause, .present 6#8, .present 0#8] } = true ∧
    [.pause, .pause, .present 6#8, .present 0#8] =
      List.replicate 2 HostEvent.pause ++ .present (encodeByte .stepFMicrostep) :: [.present 0#8] := ⟨rfl, rfl, rfl, rfl⟩

theorem witness_CommandRunsToCompletion :
    EngineInv { idleAt .m16 0#6 with
      hostIn := .present (encodeByte .stepFMicrostep) :: [], sinkIn := doneAfter [0, 0, 3, 0, 0, 1] ++ [] } ∧
    cmdReady (idleAt .m16 0#6) = true ∧ [0, 0, 3, 0, 0, 1].length = 6 := ⟨idle_engineInv .m16 _ _, rfl, rfl⟩
theorem witness_CommandEndsInSinkFault :
    EngineInv { idleAt .m16 0#6 with
      hostIn := .present (encodeByte .stepFSingle) :: [],
      sinkIn := doneAfter [0, 0, 0] ++ (List.replicate 2 .wait ++ .err :: []) } ∧
    cmdReady (idleAt .m16 0#6) = true ∧ [0, 0, 0].length = (3 : Fin 6).val := ⟨idle_engineInv .m16 _ _, rfl, rfl⟩

theorem witness_StepKeepsInvariant : EngineInv { busyAt 3 with hostIn := [], sinkIn := [.err] } ∧
    ∃ t, step { busyAt 3 with hostIn := [], sinkIn := [.err] } = .next t := ⟨busy_engineInv 3 [] [.err], _, rfl⟩
theorem witness_PositionStaysInCycle : EngineInv { busyAt 5 with hostIn := [], sinkIn := [.done] } ∧
    ∃ t, runSteps 1 { busyAt 5 with hostIn := [], sinkIn := [.done] } = .next t :=
  ⟨busy_engineInv 5 [] [.done], _, rfl⟩
theorem witness_OnlyWideWordsStopTheMachine :
    EngineInv { idleAt .m16 0#6 with hostIn := [.present 9#8], sinkIn := [] } := idle_engineInv .m16 _ _
theorem witness_ConfigurationNeverChanges : EngineInv { busyAt 5 with hostIn := [], sinkIn := [.done] } ∧
    ∃ t, runSteps 1 { busyAt 5 with hostIn := [], sinkIn := [.done] } = .next t := witness_PositionStaysInCycle
theorem witness_OtherChannelsAreNeverWritten : snkWord (busyAt 5) = some 0x15000#17 ∧
    (∃ t, runSteps 1 { busyAt 0 with sinkIn := [.done] } = .next t) ∧
    6 ∉ channelNumbers (busyAt 0).cfg.channels := ⟨by decide, ⟨_, rfl⟩, by decide⟩

theorem witness_ConfigurationErrorExactly : (12 ≠ 8 ∧ 12 ≠ 16) ∧ (Config.resetArgs.m = 8 ∨ Config.resetArgs.m = 16) ∧
    curveOk Config.resetArgs.m Config.resetArgs.curve = true ∧ channelsOk Config.resetArgs = true := by decide
theorem witness_TableConstraintsDecideConstruction : (Config.resetArgs.m = 8 ∨ Config.resetArgs.m = 16) ∧
    channelsOk { Config.resetArgs with curve := Config.defaultCurve8 } = true ∧
    ∃ t, construct Config.resetArgs [] = .next t := ⟨by decide, by decide, _, rfl⟩
theorem witness_ChannelMapDecidesConstruction : (Config.resetArgs.m = 8 ∨ Config.resetArgs.m = 16) ∧
    curveOk Config.resetArgs.m { Config.resetArgs with chB := 0 }.curve = true := by decide
theorem witness_ConstructionResetsTheEngine : ∃ t, construct Config.resetArgs [(3, .pin true)] = .next t := ⟨_, rfl⟩
theorem witness_ConstructionGivesInvariant : Memory.wf [(3, ChanState.pin true)] ∧
    ∃ t, construct Config.resetArgs [(3, .pin true)] = .next t := ⟨by decide, _, rfl⟩
theorem witness_AssemblyLinesNameTheirCommand :
    ['B', 'A', 'C', 'K', 'W', 'A', 'R', 'D'] ∈ directionWords Instr.stepBMicrostep.direction := by decide
/-- A launch that succeeds, a wrong `M`, and a sink that is not ready on channel 5. -/
theorem witness_LaunchPremisesDecideLaunch : (12 ≠ 8 ∧ 12 ≠ 16) ∧ (Config.resetArgs.m = 8 ∨ Config.resetArgs.m = 16) ∧
    (∃ t, launch Config.resetArgs [] [5, 4, 3, 2, 1, 0] = .next t) ∧ Memory.wf [] ∧
    (∃ t, construct Config.resetArgs [] = .next t) ∧ 5 ∈ Config.resetArgs.channelList ∧ 5 ∉ [0, 1, 2, 3, 4] :=
  ⟨by decide, by decide, ⟨_, rfl⟩, Memory.wf_nil, ⟨_, rfl⟩, by decide, by decide⟩

end Sys2Proof.Machine.Tests
end

section
/-! The channel map of a construction (00_scope.md R9): the model's check in the spec's words, and what
construction answers when only that check is left to decide. -/

namespace Sys2Proof.Machine

open Sys2Proof

theorem channelsInRange_iff {a : ConstructionArgs} : channelsInRange a = true ↔
    a.chA ≤ 15 ∧ a.chB ≤ 15 ∧ a.chPin0 ≤ 15 ∧ a.chPin1 ≤ 15 ∧ a.chPin2 ≤ 15 ∧ a.chPin3 ≤ 15 := by
  simp [channelsInRange, ConstructionArgs.channelList]

theorem channelsDistinct_iff {a : ConstructionArgs} : channelsDistinct a = true ↔ a.channelList.Nodup :=
  decide_eq_true_iff

theorem channelsOk_iff {a : ConstructionArgs} : channelsOk a = true ↔
    (a.chA ≤ 15 ∧ a.chB ≤ 15 ∧ a.chPin0 ≤ 15 ∧ a.chPin1 ≤ 15 ∧ a.chPin2 ≤ 15 ∧ a.chPin3 ≤ 15) ∧
      a.channelList.Nodup := by
  rw [channelsOk, Bool.and_eq_true, channelsInRange_iff, channelsDistinct_iff]

/-- With a legal `M` and a good table the channel map alone decides: an engine, or the named refusal. -/
theorem construct_of_curveOk {a : ConstructionArgs} (hm : a.m = 8 ∨ a.m = 16) (hc : curveOk a.m a.curve = true)
    (sink : Memory) :
    (channelsOk a = true ∧ ∃ t, construct a sink = .next t) ∨
      (channelsOk a = false ∧ construct a sink = .refused .channelMapPremise) := by
  obtain ⟨m, -, h⟩ := construct_of_phaseWidth hm sink
  rw [if_pos hc] at h
  cases hch : channelsOk a with
  | true => exact .inl ⟨rfl, _, by rw [h, if_pos hch]⟩
  | false => exact .inr ⟨rfl, by rw [h, if_neg (by simp [hch])]⟩

/-- Settles O54: of the two answers left by a legal `M` and a good table, the check of 00_scope.md R9 picks one. -/
theorem channelMapDecidesConstruction : Obligations.ChannelMapDecidesConstruction := by
  intro a sink hm hc
  have hR9 := channelsOk_iff (a := a)
  obtain ⟨hok, hnext⟩ | ⟨hbad, hrefused⟩ := construct_of_curveOk hm hc sink
  · exact ⟨iff_of_true hnext (hR9.mp hok), fun hnone => absurd hnext hnone⟩
  · have hnone : ¬ ∃ t, construct a sink = .next t := by simp [hrefused]
    have hmap := mt hR9.mpr (Bool.eq_false_iff.mp hbad)
    exact ⟨iff_of_false hnone hmap, fun _ => hrefused⟩

end Sys2Proof.Machine
end

section
/-! What the engine's operations keep of the invariant (10_state.md R22 to R30), operation by operation, and from that
what every step and every run keeps. -/

namespace Sys2Proof.Machine

open Sys2Proof

-- THE FIELDS THAT THE END OF A SINK COMMAND WRITES

theorem sinkDone_busy (k : Fin 6) (c : SinkCmd) (s : State) :
    (sinkDone k c s).busy = if k.val = 5 then false else s.busy := by
  simp only [sinkDone]; split <;> rfl

theorem sinkDone_responses (k : Fin 6) (c : SinkCmd) (s : State) :
    (sinkDone k c s).responses = if k.val = 5 then s.responses ++ [respOk s.pos] else s.responses := by
  simp only [sinkDone]; split <;> rfl

/-- A completed sink command writes its content, and nothing else (43_actuation_sink.md R163). -/
theorem effect_eq_write_content (c : SinkCmd) (m : Memory) : c.effect m = Memory.write m c.chan.toNat c.content := by
  rw [effect_eq_write]
  cases c <;> rfl

-- THE RESPONSES

theorem responsesMatch_of_fault_none {s : State} (hf : s.fault = .none) :
    ResponsesMatch s ↔ ∀ r ∈ s.responses, respStatus r = 0b00#2 := by
  simp only [ResponsesMatch, hf]

theorem responsesMatch_of_sinkFault {s : State} {k : Fin 6} (hf : s.fault = .sinkFault k) :
    ResponsesMatch s ↔ ∃ before, s.responses = before ++ [respSinkFault k] ∧ ∀ r ∈ before, respStatus r = 0b00#2 := by
  simp only [ResponsesMatch, hf]

-- THE DELIVERED COMMANDS

/-- What the outstanding command `k` leaves on its own channel does not disturb the commands before it: the six channels
are distinct (00_scope.md R9). -/
theorem delivered_of_write_own {s t : State} {l : Latches} {k : Fin 6} {v : ChanState}
    (hlegal : s.cfg.legal = true) (hcfg : t.cfg = s.cfg)
    (hsink : t.sink = Memory.write s.sink (sinkCommand s.cfg.channels l k).chan.toNat v)
    (h : Delivered s l k.val) : Delivered t l k.val := by
  intro j hj
  have hjk : j ≠ k := by rintro rfl; exact lt_irrefl _ hj
  rw [hcfg, hsink, Memory.read_write_other (sinkCommand_chan_ne (legal_channels_distinct hlegal) l hjk)]
  exact h j hj

theorem delivered_succ {s : State} {l : Latches} {k : Fin 6} (h : Delivered s l k.val)
    (hk : Memory.read s.sink (sinkCommand s.cfg.channels l k).chan.toNat = (sinkCommand s.cfg.channels l k).content) :
    Delivered s l (k.val + 1) := by
  intro j hj
  rcases Nat.lt_succ_iff_lt_or_eq.1 hj with hlt | heq
  · exact h j hlt
  · rw [Fin.ext heq]
    exact hk

-- EVERY OPERATION KEEPS THE INVARIANT

/-- The invariant does not read what host and sink have yet to do. -/
theorem engineInv_of_inputs {s : State} (h : EngineInv s) (hostIn : List HostEvent) (sinkIn : List SinkAnswer) :
    EngineInv { s with hostIn := hostIn, sinkIn := sinkIn } :=
  ⟨h.cfgLegal, h.posInCycle, h.sinkCanonical, h.busyOutstanding, h.faultIndex, h.unlatchedStart, h.latchesMatch,
    h.delivered, h.responsesMatch⟩

/-- An accept writes a position of the cycle and the latches that belong to it (40_step_fsm.md R80). -/
theorem engineInv_latchStep {s : State} {d : Direction} {y : Style} {p : Nat} {l : Latches} (h : EngineInv s)
    (hf : s.fault = .none) (hl : drive s.cfg y (newPosition s.cfg.m d y p) = some l) :
    EngineInv (latchStep (newPosition s.cfg.m d y p) l s) where
  cfgLegal := h.cfgLegal
  posInCycle := by
    rw [latchStep_pos, ofNat_newPosition_toNat]
    exact newPosition_lt s.cfg.m d y p
  sinkCanonical := h.sinkCanonical
  busyOutstanding := fun _ => ⟨by simp, rfl, hf⟩
  faultIndex := fun k hk => by simp [hf] at hk
  unlatchedStart := fun _ => rfl
  latchesMatch := fun l' hl' => by
    cases hl'
    exact ⟨y, by rw [latchStep_pos, ofNat_newPosition_toNat]; exact hl⟩
  delivered := fun _ _ j hj => absurd hj (Nat.not_lt_zero j.val)
  responsesMatch := h.responsesMatch

/-- A completed sink command adds itself to the delivered ones; the sixth sends an OK response (43_actuation_sink.md
R165, 40_step_fsm.md R86). -/
theorem engineInv_sinkDone {s : State} {k : Fin 6} {l : Latches} (h : EngineInv s) (hb : s.busy = true)
    (hk : s.emitIdx = k.castSucc) (hl : s.lat = some l) :
    EngineInv (sinkDone k (sinkCommand s.cfg.channels l k) s) := by
  obtain ⟨-, -, hf⟩ := h.busyOutstanding hb
  exact {
    cfgLegal := by simpa using h.cfgLegal
    posInCycle := by simpa using h.posInCycle
    sinkCanonical := by simpa only [sinkDone_sink] using effect_wf _ h.sinkCanonical
    busyOutstanding := fun hbusy => by
      have hk5 : k.val ≠ 5 := fun hk5 => by simp [sinkDone_busy, hk5] at hbusy
      refine ⟨?_, by simp [hl], by simpa using hf⟩
      simp only [sinkDone_emitIdx, Fin.val_succ]
      omega
    faultIndex := fun j hj => by simp [hf] at hj
    unlatchedStart := fun hnone => by simp [hl] at hnone
    latchesMatch := by simpa using h.latchesMatch
    delivered := fun l' hl' => by
      obtain rfl : l = l' := by simpa [hl] using hl'
      have hbefore : Delivered s l k.val := by simpa [hk] using h.delivered l hl
      rw [sinkDone_emitIdx, Fin.val_succ]
      have hsink := (sinkDone_sink k (sinkCommand s.cfg.channels l k) s).trans (effect_eq_write_content ..)
      refine delivered_succ (delivered_of_write_own h.cfgLegal (sinkDone_cfg ..) hsink hbefore) ?_
      rw [sinkDone_sink, sinkDone_cfg, effect_read _ h.sinkCanonical]
    responsesMatch := by
      have hok := (responsesMatch_of_fault_none hf).1 h.responsesMatch
      rw [responsesMatch_of_fault_none (by simpa using hf), sinkDone_responses]
      split
      · exact List.forall_mem_append.2 ⟨hok, List.forall_mem_singleton.2 (respOk_fields s.pos).1⟩
      · exact hok }

/-- A failed sink command leaves the commands before it delivered and answers with its index (60_exceptions.md R183). -/
theorem engineInv_raiseSinkFault {s : State} {k : Fin 6} {l : Latches} (h : EngineInv s) (hb : s.busy = true)
    (hk : s.emitIdx = k.castSucc) (hl : s.lat = some l) :
    EngineInv (raiseSinkFault k (sinkCommand s.cfg.channels l k) s) := by
  obtain ⟨-, -, hf⟩ := h.busyOutstanding hb
  exact {
    cfgLegal := h.cfgLegal
    posInCycle := h.posInCycle
    sinkCanonical := Memory.write_wf h.sinkCanonical (BitVec.isLt _)
    busyOutstanding := fun hbusy => by simp at hbusy
    faultIndex := fun j hj => by
      obtain rfl : k = j := by simpa using hj
      exact hk
    unlatchedStart := h.unlatchedStart
    latchesMatch := h.latchesMatch
    delivered := fun l' hl' => by
      obtain rfl : l = l' := by simpa [hl] using hl'
      have hbefore : Delivered s l k.val := by simpa [hk] using h.delivered l hl
      rw [raiseSinkFault_emitIdx, hk]
      exact delivered_of_write_own h.cfgLegal rfl rfl hbefore
    responsesMatch := (responsesMatch_of_sinkFault rfl).2
      ⟨s.responses, rfl, (responsesMatch_of_fault_none hf).1 h.responsesMatch⟩ }

/-- Settles O47: each transition is one operation, up to what host and sink have yet to do, and each operation keeps the
invariant. -/
theorem stepKeepsInvariant : Obligations.StepKeepsInvariant := by
  intro s t h hstep
  cases step_cases hstep with
  | accepted b rest i l ready _ _ driven =>
    exact engineInv_latchStep (engineInv_of_inputs h rest s.sinkIn) ((cmdReady_iff s).1 ready).2 driven
  | done rest k l busy _ index latched =>
    exact engineInv_sinkDone (engineInv_of_inputs h s.hostIn rest) busy index latched
  | err rest k l busy _ index latched =>
    exact engineInv_raiseSinkFault (engineInv_of_inputs h s.hostIn rest) busy index latched
  | waited rest _ _ => exact engineInv_of_inputs h s.hostIn rest
  | paused rest _ _ => exact engineInv_of_inputs h rest s.sinkIn
  | still _ => exact h

theorem runSteps_keeps_engineInv {n : Nat} {s t : State} (h : EngineInv s) (hrun : runSteps n s = .next t) :
    EngineInv t :=
  runSteps_keeps stepKeepsInvariant h hrun

-- THE POSITION ALONG A RUN

/-- No step changes the configuration (10_state.md R26). -/
theorem step_cfg {s t : State} (h : step s = .next t) : t.cfg = s.cfg := by
  cases step_cases h with
  | done rest k l _ _ _ _ => exact sinkDone_cfg k _ _
  | _ => rfl

theorem runSteps_cfg {n : Nat} {s t : State} (h : runSteps n s = .next t) : t.cfg = s.cfg :=
  runSteps_relates (R := fun s t => t.cfg = s.cfg) (fun _ => rfl) (fun _ _ _ hst htu => htu.trans hst)
    (fun _ _ => step_cfg) h

/-- Settles O48: the run keeps the invariant, and the cycle is that of a configuration that never changes. -/
theorem positionStaysInCycle : Obligations.PositionStaysInCycle := by
  intro n s t h hrun
  have hpos := (runSteps_keeps_engineInv h hrun).posInCycle
  rwa [runSteps_cfg hrun] at hpos

/-- Settles O30: the cycle of `M = 8` has 32 positions, which need five bits. -/
theorem positionOutput : Obligations.PositionOutput := by
  intro s h
  refine ⟨rfl, fun hm => ?_⟩
  have hpos : s.pos.toNat < 2 ^ 5 := by simpa [hm, PhaseWidth.cycle, PhaseWidth.val] using h.posInCycle
  exact Nat.testBit_lt_two_pow hpos

-- COMMANDS HAVE NO HISTORY

/-- A ready engine that answers a command has latched its drive at the new position (40_step_fsm.md R80). -/
theorem exec_ready_cases {i : Instr} {s t : State} (hr : cmdReady s = true) (h : exec i s = .next t) :
    ∃ l, drive s.cfg i.style (newPosition s.cfg.m i.direction i.style s.pos.toNat) = some l ∧
      t = latchStep (newPosition s.cfg.m i.direction i.style s.pos.toNat) l s := by
  rw [exec_eq_accept] at h
  obtain ⟨hn, -⟩ | ⟨-, hlatched⟩ := accept_cases h
  · simp [hr] at hn
  · exact hlatched

/-- Settles O19: new position and drive are functions of configuration, position and command, and the accept writes
nothing else but constants. -/
theorem commandsKeepNoHistory : Obligations.CommandsKeepNoHistory := by
  intro i s u t v hs hu hcfg hpos ht hv
  obtain ⟨l, hl, rfl⟩ := exec_ready_cases hs ht
  obtain ⟨l', hl', rfl⟩ := exec_ready_cases hu hv
  rw [hcfg, hpos] at hl' ⊢
  obtain rfl : l = l' := Option.some.inj (hl.symm.trans hl')
  exact ⟨rfl, rfl, rfl, rfl⟩

-- THE FAULTS OF A STEP

theorem accept_ne_fault (d : Direction) (y : Style) (s : State) (f : Fault) : accept d y s ≠ .fault f := by
  unfold accept
  split
  · split <;> simp
  · simp

theorem refuseWord_ne_fault (e : DecodeError) (f : Fault) : refuseWord e ≠ .fault f := by
  cases e
  simp [refuseWord]

theorem idleTurn_ne_fault (s : State) (f : Fault) : idleTurn s ≠ .fault f := by
  unfold idleTurn
  split
  · split <;> simp
  · simp

/-- The end of a sink command stops exactly where the outstanding command cannot be read. -/
theorem endCommand_fault_iff {e : SinkEnding} {s : State} {f : Fault} :
    endCommand e s = .fault f ↔ outstanding s = .error f := by
  unfold endCommand
  cases outstanding s with
  | ok kc => cases e <;> simp
  | error g => simp

/-- The outstanding command reads the latches (10_state.md R28). -/
theorem outstanding_unwritten {s : State} (hk : s.emitIdx.val < 6) (hl : s.lat = none) :
    outstanding s = .error .unwrittenLatch := by
  simp [outstanding, hk, hl]

theorem sinkTurn_fault {s : State} {f : Fault} (h : sinkTurn s = .fault f) : outstanding s = .error f := by
  unfold sinkTurn at h
  split at h
  case h_1 | h_2 => cases h
  case h_3 rest _ | h_4 rest _ => exact endCommand_fault_iff (s := { s with sinkIn := rest }).1 h

/-- The inversion of a step that stops with a fault: only a busy engine whose outstanding command cannot be read. -/
theorem step_fault {s : State} {f : Fault} (h : step s = .fault f) : s.busy = true ∧ outstanding s = .error f := by
  unfold step at h
  split at h
  · split at h
    · rw [exec_eq_accept] at h
      exact absurd h (accept_ne_fault _ _ _ f)
    · exact absurd h (refuseWord_ne_fault _ f)
  · unfold otherTurn at h
    split at h
    · exact ⟨‹_›, sinkTurn_fault h⟩
    · exact absurd h (idleTurn_ne_fault s f)

/-- With the invariant a busy engine has an outstanding command (10_state.md R27, R28). -/
theorem outstanding_of_engineInv {s : State} (h : EngineInv s) (hb : s.busy = true) :
    ∃ k l, s.emitIdx = k.castSucc ∧ s.lat = some l ∧ outstanding s = .ok (k, sinkCommand s.cfg.channels l k) := by
  obtain ⟨hk, hlat, -⟩ := h.busyOutstanding hb
  obtain ⟨l, hl⟩ := Option.isSome_iff_exists.1 hlat
  exact ⟨⟨s.emitIdx.val, hk⟩, l, rfl, hl, outstanding_of rfl hl⟩

theorem step_ne_fault {s : State} (h : EngineInv s) (f : Fault) : step s ≠ .fault f := by
  intro hstep
  obtain ⟨hb, herr⟩ := step_fault hstep
  obtain ⟨k, l, -, -, hok⟩ := outstanding_of_engineInv h hb
  simp [hok] at herr

/-- No run from a state with the invariant ends in a fault of the machine. -/
theorem runSteps_ne_fault {n : Nat} {s : State} (h : EngineInv s) (f : Fault) : runSteps n s ≠ .fault f := by
  induction n generalizing s with
  | zero => simp
  | succ n ih =>
    rw [runSteps_succ]
    cases hstep : step s with
    | next t => exact ih (stepKeepsInvariant s t h hstep)
    | fault g => exact absurd hstep (step_ne_fault h g)
    | refused r => simp

/-- Settles O58: an ending of the outstanding command reads the latches, and with the invariant they are written. -/
theorem unwrittenLatchesAreNeverRead : Obligations.UnwrittenLatchesAreNeverRead := by
  refine ⟨fun s a rest hb hk hl ha hsink => ?_, fun n s h => runSteps_ne_fault h _⟩
  have herr : outstanding { s with sinkIn := rest } = .error .unwrittenLatch := outstanding_unwritten hk hl
  rw [step_busy hb, sinkTurn, hsink]
  cases a with
  | wait => exact absurd rfl ha
  | done => exact endCommand_fault_iff.2 herr
  | err => exact endCommand_fault_iff.2 herr

end Sys2Proof.Machine
end

section
/-! What the engine does to the sink's channel space (20_memory.md R44, R45, R48): a write repeated, the channels it
never addresses, and what stands on the six channels when it answers OK. -/

namespace Sys2Proof.Machine

open Sys2Proof

-- A WRITE REPEATED

/-- Of two writes of one channel only the later is left, in the list itself, unless the earlier one unlisted the
channel. -/
theorem Memory.write_write_same (m : Memory) (c : Nat) {u : ChanState} (v : ChanState) (hu : u ≠ Memory.unlisted) :
    Memory.write (Memory.write m c u) c v = Memory.write m c v := by
  induction m with
  | nil => simp [Memory.write, hu]
  | cons e m ih =>
    obtain ⟨a, x⟩ := e
    by_cases hlt : c < a
    · simp [Memory.write, hlt, hu]
    · by_cases heq : c = a
      · simp [Memory.write, heq, hu]
      · simp [Memory.write, hlt, heq, ih]

theorem SinkCmd.content_ne_unlisted (c : SinkCmd) : c.content ≠ Memory.unlisted := by
  cases c <;> simp [SinkCmd.content, Memory.unlisted]

/-- Settles O33: a sink command is one write of its own channel, and its content is never the mark of an unlisted one. -/
theorem repeatedSinkCommandChangesNothing : Obligations.RepeatedSinkCommandChangesNothing := by
  intro c m _
  simp only [effect_eq_write_content]
  exact Memory.write_write_same m c.chan.toNat c.content c.content_ne_unlisted

-- WHAT AN OK RESPONSE TELLS

/-- A step that sends a response either ended the sixth sink command, with OK, or entered the sink fault (30_encoding.md
R65). -/
theorem step_response_cases {s t : State} {r : RespWord} (h : step s = .next t)
    (hr : t.responses = s.responses ++ [r]) :
    (r = respOk t.pos ∧ t.emitIdx = 6 ∧ ∃ l, t.lat = some l) ∨
      ∃ k : Fin 6, r = respSinkFault k ∧ t.fault = .sinkFault k := by
  cases step_cases h with
  | done rest k l _ _ _ latched =>
    rw [sinkDone_responses] at hr
    split at hr
    case isTrue hk =>
      obtain rfl : k = 5 := Fin.ext hk
      exact .inl ⟨by simpa using hr.symm, by rw [sinkDone_emitIdx]; rfl, l, by simpa using latched⟩
    case isFalse => simp at hr
  | err rest k l _ _ _ _ => exact .inr ⟨k, by simpa using hr.symm, rfl⟩
  | accepted | waited | paused | still => simp at hr

/-- Settles O37: only the sixth completion answers OK, and the invariant holds after it. -/
theorem okResponseMeansAllSixDelivered : Obligations.OkResponseMeansAllSixDelivered := by
  intro s t r hinv hstep hr hok
  obtain ⟨-, hidx, l, hl⟩ | ⟨k, rfl, -⟩ := step_response_cases hstep hr
  · have hdelivered := (stepKeepsInvariant s t hinv hstep).delivered l hl
    rw [hidx] at hdelivered
    exact ⟨hidx, l, hl, hdelivered⟩
  · simp [(respSinkFault_fields k).1] at hok

-- THE CHANNELS THAT ARE NONE OF THE SIX

/-- The channel field of a word laid out as `{kind, chan, value}` (43_actuation_sink.md R161). -/
theorem extractLsb'_chan (kind : BitVec 1) (chan : Channel) (value : BitVec 12) :
    (kind ++ chan ++ value).extractLsb' 12 4 = chan := by
  rw [BitVec.extractLsb'_append_eq_of_le le_rfl, BitVec.extractLsb'_append_eq_of_add_le le_rfl,
    BitVec.extractLsb'_eq_self]

theorem SinkCmd.word_chan (c : SinkCmd) : c.word.extractLsb' 12 4 = c.chan := by
  cases c <;> exact extractLsb'_chan ..

/-- A word shown to the sink is one of the six of the latched step (43_actuation_sink.md R162). -/
theorem snkWord_some {s : State} {w : SinkWord} (h : snkWord s = some w) :
    ∃ l k, w = (sinkCommand s.cfg.channels l k).word := by
  unfold snkWord at h
  split at h
  · split at h
    · rename_i k c ho
      obtain ⟨-, l, -, rfl⟩ := outstanding_ok_iff.1 ho
      exact ⟨l, k, (Option.some.inj h).symm⟩
    · cases h
  · cases h

/-- No step touches a channel that is none of the six, however the outstanding sink command ends. -/
theorem step_read_other {s t : State} {x : Nat} (h : step s = .next t) (hx : x ∉ channelNumbers s.cfg.channels) :
    Memory.read t.sink x = Memory.read s.sink x := by
  have hne (l : Latches) (k : Fin 6) : x ≠ (sinkCommand s.cfg.channels l k).chan.toNat := by
    rintro rfl
    exact hx (sinkCommand_chan_mem s.cfg.channels l k)
  cases step_cases h with
  | done rest k l _ _ _ _ => rw [sinkDone_sink, effect_read_other _ _ (hne l k)]
  | err rest k l _ _ _ _ => rw [raiseSinkFault_sink, Memory.read_write_other (hne l k)]
  | accepted | waited | paused | still => rfl

/-- Settles O51: a sink word carries the channel of its command, which is one of the six, and the six stay the same along a
run because the configuration does. -/
theorem otherChannelsAreNeverWritten : Obligations.OtherChannelsAreNeverWritten := by
  refine ⟨fun s w hw => ?_, fun n s t x hrun hx => ?_⟩
  · obtain ⟨l, k, rfl⟩ := snkWord_some hw
    rw [SinkCmd.word_chan]
    exact sinkCommand_chan_mem s.cfg.channels l k
  · refine (runSteps_keeps (P := fun u => u.cfg = s.cfg ∧ Memory.read u.sink x = Memory.read s.sink x)
      (fun u v ⟨hcfg, hread⟩ hstep => ?_) ⟨rfl, rfl⟩ hrun).2
    exact ⟨(step_cfg hstep).trans hcfg, (step_read_other hstep (by rwa [hcfg])).trans hread⟩

end Sys2Proof.Machine
end

section
/-! The command words (30_encoding.md R60 to R64): what the decoder and the encoder do to the fields, the bytes of the
transport, and the step that takes a presented byte (70_reset_and_hazards.md R205). -/

namespace Sys2Proof

-- DIRECTION AND STYLE OF A COMMAND

@[simp] theorem Instr.ofFields_direction (d : Direction) (y : Style) : (Instr.ofFields d y).direction = d := by
  cases d <;> cases y <;> rfl

@[simp] theorem Instr.ofFields_style (d : Direction) (y : Style) : (Instr.ofFields d y).style = y := by
  cases d <;> cases y <;> rfl

/-- A command is its direction and its style (00_scope.md R2). -/
@[simp] theorem Instr.ofFields_fields (i : Instr) : Instr.ofFields i.direction i.style = i := by
  cases i <;> rfl

-- THE TWO FIELDS OF A WORD

theorem directionOf_append (y : BitVec 2) (d : Direction) : directionOf (y ++ d.code) = d := by
  have hfield : (y ++ d.code).getLsbD 0 = d.code.getLsbD 0 := BitVec.getLsbD_append ..
  rw [directionOf, hfield]
  cases d <;> rfl

theorem styleOf_append (y : Style) (d : BitVec 1) : styleOf (y.code ++ d) = y := by
  have hfield : (y.code ++ d).extractLsb' 1 2 = y.code := BitVec.extractLsb'_append_eq_left
  rw [styleOf, hfield]
  cases y <;> rfl

theorem directionOf_code (cmd : CmdWord) : (directionOf cmd).code = cmd.extractLsb' 0 1 := by
  revert cmd; decide

theorem styleOf_code (cmd : CmdWord) : (styleOf cmd).code = cmd.extractLsb' 1 2 := by
  revert cmd; decide

/-- The style is the entry of its list at `cmd[2:1]` (30_encoding.md R61). -/
theorem styleOf_eq_getElem? (cmd : CmdWord) :
    [Style.single, Style.double, Style.interleave, Style.microstep][(cmd.extractLsb' 1 2).toNat]? =
      some (styleOf cmd) := by
  rw [← styleOf_code]
  cases styleOf cmd <;> rfl

-- DECODER AND ENCODER

theorem decodeWord_encode (i : Instr) : decodeWord (encode i) = i := by
  rw [decodeWord, encode, directionOf_append, styleOf_append, Instr.ofFields_fields]

theorem encode_decodeWord (cmd : CmdWord) : encode (decodeWord cmd) = cmd := by
  rw [encode, decodeWord, Instr.ofFields_style, Instr.ofFields_direction, styleOf_code, directionOf_code]
  exact BitVec.extractLsb'_append_extractLsb' ..

-- THE BYTES OF THE TRANSPORT

/-- A word in a byte leaves the five bits above it 0. -/
theorem setWidth_byte_toNat_lt (cmd : CmdWord) : (cmd.setWidth 8 : Byte).toNat < 8 := by
  rw [BitVec.toNat_setWidth_of_le (by decide)]
  exact cmd.isLt

theorem decode_setWidth (cmd : CmdWord) : decode (cmd.setWidth 8) = .ok (decodeWord cmd) := by
  rw [decode_narrow (setWidth_byte_toNat_lt cmd), BitVec.setWidth_setWidth_of_le _ (by decide), BitVec.setWidth_eq]

theorem decode_encodeByte (i : Instr) : decode (encodeByte i) = .ok i := by
  rw [encodeByte, decode_setWidth, decodeWord_encode]

theorem decode_ok_iff {b : Byte} {i : Instr} : decode b = .ok i ↔ encodeByte i = b := by
  refine ⟨fun h => ?_, fun h => h ▸ decode_encodeByte i⟩
  rcases Nat.lt_or_ge b.toNat 8 with hlt | hge
  · rw [decode_narrow hlt] at h
    cases h
    rw [encodeByte, encode_decodeWord]
    exact BitVec.eq_of_toNat_eq (by simp only [BitVec.toNat_setWidth]; omega)
  · simp [decode_wide hge] at h

theorem tableByte_encode (i : Instr) : tableByte 8 (encode i).toNat = encodeByte i := by
  have hlt : (encode i).toNat < 8 := (encode i).isLt
  rw [tableByte, if_pos (by omega), Nat.mod_eq_of_lt (by omega), BitVec.ofNat_toNat, encodeByte]

theorem decodeTableWord_encode (i : Instr) : decodeTableWord 8 (encode i).toNat = some i := by
  simp only [decodeTableWord, tableByte_encode, decode_encodeByte]

end Sys2Proof

namespace Sys2Proof.Machine

open Sys2Proof

/-- Settles O1: each row of R63 is a word of three bits. -/
theorem opcodeMapDecodes : Obligations.OpcodeMapDecodes :=
  ⟨rfl, rfl, rfl, rfl, rfl, rfl, rfl, rfl⟩

/-- Settles O2: the decoder builds the command from the two fields, and the command has them back. -/
theorem fieldsDecodeDirectionAndStyle : Obligations.FieldsDecodeDirectionAndStyle := by
  intro cmd
  rw [decodeWord, Instr.ofFields_direction, Instr.ofFields_style, directionOf]
  exact ⟨by cases cmd.getLsbD 0 <;> rfl, styleOf_eq_getElem? cmd⟩

/-- Settles O3: the two fields of a word survive both ways, and the transport carries exactly the encoded bytes. -/
theorem decodeAndEncodeAgree : Obligations.DecodeAndEncodeAgree :=
  ⟨fun i _ => ⟨decodeWord_encode i, decode_encodeByte i⟩, encode_decodeWord, fun _ _ => decode_ok_iff.1⟩

/-- Settles O4: a ready engine takes the presented byte, and the transport refuses it when it is wide. -/
theorem wideWordsAreRefused : Obligations.WideWordsAreRefused := by
  refine ⟨fun cmd => ⟨decodeWord cmd, decode_setWidth cmd⟩, fun b hb i => ?_, fun s b rest hr hh hb => ?_⟩
  · simp [decode_wide hb]
  · rw [step_presented hr hh, decode_wide hb]
    rfl

/-- Settles O6: a ready engine takes the presented byte, which leaves the rest of the host's list. -/
theorem stepRunsDecodedCommand : Obligations.StepRunsDecodedCommand := by
  intro s b i rest hb hf hh hd
  rw [step_presented ((cmdReady_iff s).2 ⟨hb, hf⟩) hh, hd, dropWord, hh]
  rfl

/-- Settles O7: the table word of a command travels as its encoded byte, and the step that takes it removes it. -/
theorem placedWordRunsNext : Obligations.PlacedWordRunsNext := by
  intro s i hb hf
  refine ⟨decodeTableWord_encode i, ?_⟩
  rw [State.withFetchWord, tableByte_encode]
  exact stepRunsDecodedCommand _ _ i s.hostIn hb hf rfl (decode_encodeByte i)

end Sys2Proof.Machine
end

section
/-! The assembly text (30_encoding.md R66): the tokens of each form of a line, and the command they name. -/

namespace Sys2Proof.Machine

open Sys2Proof

-- THE TOKENS OF A LINE

theorem flushWord_of_ne_nil {w : List Char} (h : w ≠ []) : flushWord w = [.word w] := if_neg h

/-- A letter goes to the word being read, as a capital. -/
theorem tokenize_letter {c : Char} (h : c.isAlpha = true) (acc rest : List Char) :
    tokenize acc (c :: rest) = tokenize (acc ++ [c.toUpper]) rest := by
  have hne : ∀ d : Char, d.isAlpha = false → c ≠ d := fun d hd => by
    rintro rfl
    simp [h] at hd
  simp [tokenize, h, hne ';' (by decide), hne ' ' (by decide), hne '\t' (by decide), hne '\r' (by decide),
    hne ',' (by decide), hne '(' (by decide), hne ')' (by decide), hne '.' (by decide)]

theorem tokenize_letters {w : List Char} (h : ∀ c ∈ w, c.isAlpha = true) (acc rest : List Char) :
    tokenize acc (w ++ rest) = tokenize (acc ++ w.map Char.toUpper) rest := by
  induction w generalizing acc with
  | nil => simp
  | cons c w ih =>
    obtain ⟨hc, hw⟩ := List.forall_mem_cons.1 h
    rw [List.cons_append, tokenize_letter hc, ih hw, List.append_assoc, List.map_cons, List.singleton_append]

theorem tokenize_blank (acc rest : List Char) :
    tokenize acc (' ' :: rest) = (tokenize [] rest).map (flushWord acc ++ ·) := by
  simp [tokenize]

/-- A blank where no word has begun adds no token. -/
theorem tokenize_nil_blank (rest : List Char) : tokenize [] (' ' :: rest) = tokenize [] rest := by
  simp [tokenize_blank, flushWord]

/-- The characters that are tokens by themselves. -/
abbrev IsMark (c : Char) : Prop := c = ',' ∨ c = '(' ∨ c = ')' ∨ c = '.'

theorem tokenize_mark {c : Char} (h : IsMark c) (acc rest : List Char) :
    tokenize acc (c :: rest) = (tokenize [] rest).map (flushWord acc ++ .mark c :: ·) := by
  rcases h with rfl | rfl | rfl | rfl <;> simp [tokenize]

/-- A word of a line: one letter or more. -/
def IsWord (w : List Char) : Prop := w ≠ [] ∧ ∀ c ∈ w, c.isAlpha = true

/-- The token of a word, which is in capitals. -/
def wordToken (w : List Char) : Token := .word (w.map Char.toUpper)

section Words

variable {w : List Char} (hw : IsWord w)
include hw

theorem flushWord_map_toUpper : flushWord (w.map Char.toUpper) = [wordToken w] :=
  flushWord_of_ne_nil (mt List.map_eq_nil_iff.1 hw.1)

/-- A word at the end of the line. -/
theorem tokenize_word : tokenize [] w = some [wordToken w] := by
  calc tokenize [] w = tokenize [] (w ++ []) := by rw [List.append_nil]
    _ = some (flushWord (w.map Char.toUpper)) := by rw [tokenize_letters hw.2]; rfl
    _ = some [wordToken w] := by rw [flushWord_map_toUpper hw]

/-- A word before a blank. -/
theorem tokenize_word_blank (rest : List Char) :
    tokenize [] (w ++ ' ' :: rest) = (tokenize [] rest).map (wordToken w :: ·) := by
  rw [tokenize_letters hw.2, List.nil_append, tokenize_blank, flushWord_map_toUpper hw]
  rfl

/-- A word before a mark. -/
theorem tokenize_word_mark {c : Char} (hc : IsMark c) (rest : List Char) :
    tokenize [] (w ++ c :: rest) = (tokenize [] rest).map (wordToken w :: .mark c :: ·) := by
  rw [tokenize_letters hw.2, List.nil_append, tokenize_mark hc, flushWord_map_toUpper hw]
  rfl

end Words

-- THE THREE FORMS OF A LINE

/-- `STEP`, as the line and the dotted mnemonic have it and as the call form has it. -/
theorem stepWord_isWord : IsWord ['S', 'T', 'E', 'P'] ∧ IsWord ['s', 't', 'e', 'p'] := by simp [IsWord]

section Forms

variable {d y : List Char} (hd : IsWord d) (hy : IsWord y)
include hd hy

theorem tokenize_stepLine : tokenize [] (stepLine d y) =
    some [wordToken ['S', 'T', 'E', 'P'], wordToken d, .mark ',', wordToken y] := by
  have hline : stepLine d y = ['S', 'T', 'E', 'P'] ++ ' ' :: (d ++ ',' :: ' ' :: y) := by simp [stepLine]
  rw [hline, tokenize_word_blank stepWord_isWord.1, tokenize_word_mark hd (by decide), tokenize_nil_blank,
    tokenize_word hy]
  rfl

theorem tokenize_callLine : tokenize [] (callLine d y) =
    some [wordToken ['s', 't', 'e', 'p'], .mark '(', wordToken d, .mark ',', wordToken y, .mark ')'] := by
  have hline : callLine d y = ['s', 't', 'e', 'p'] ++ '(' :: (d ++ ',' :: ' ' :: (y ++ [')'])) := by simp [callLine]
  rw [hline, tokenize_word_mark stepWord_isWord.2 (by decide), tokenize_word_mark hd (by decide), tokenize_nil_blank,
    tokenize_word_mark hy (by decide)]
  rfl

theorem tokenize_dotted : tokenize [] (['S', 'T', 'E', 'P', '.'] ++ d ++ ['.'] ++ y) =
    some [wordToken ['S', 'T', 'E', 'P'], .mark '.', wordToken d, .mark '.', wordToken y] := by
  have hline : ['S', 'T', 'E', 'P', '.'] ++ d ++ ['.'] ++ y = ['S', 'T', 'E', 'P'] ++ '.' :: (d ++ '.' :: y) := by simp
  rw [hline, tokenize_word_mark stepWord_isWord.1 (by decide), tokenize_word_mark hd (by decide), tokenize_word hy]
  rfl

end Forms

-- THE COMMAND OF A LINE

theorem directionWords_isWord {dir : Direction} : ∀ d ∈ directionWords dir, IsWord d := by
  cases dir <;> simp [IsWord, directionWords, directionLetter]

theorem styleLetters_isWord (sty : Style) : IsWord (styleLetters sty) := by
  cases sty <;> simp [IsWord, styleLetters]

theorem directionLetter_mem (dir : Direction) : directionLetter dir ∈ directionWords dir := by
  cases dir <;> exact List.mem_cons_self

theorem parseDirection_directionWords {dir : Direction} :
    ∀ d ∈ directionWords dir, parseDirection (d.map Char.toUpper) = some dir := by
  cases dir <;> decide

theorem parseStyle_styleLetters (sty : Style) : parseStyle ((styleLetters sty).map Char.toUpper) = some sty := by
  cases sty <;> decide

/-- `STEP` with a word for the direction and the word for the style names the command of the two (30_encoding.md
R66). -/
theorem parseFields_step (i : Instr) {d : List Char} (hd : d ∈ directionWords i.direction) :
    parseFields ['S', 'T', 'E', 'P'] (d.map Char.toUpper) ((styleLetters i.style).map Char.toUpper) = some i := by
  simp only [parseFields, if_pos, parseDirection_directionWords d hd, parseStyle_styleLetters,
    Instr.ofFields_fields]

/-- What a line names depends on its tokens alone. -/
theorem parseLine_congr {line line' : List Char} (h : tokenize [] line = tokenize [] line') :
    parseLine line = parseLine line' := by
  simp only [parseLine, h]

theorem parseLine_stepLine (i : Instr) {d : List Char} (hd : d ∈ directionWords i.direction) :
    parseLine (stepLine d (styleLetters i.style)) = some (some i) := by
  rw [parseLine, tokenize_stepLine (directionWords_isWord d hd) (styleLetters_isWord i.style)]
  exact congrArg (Option.map some) (parseFields_step i hd)

theorem parseLine_callLine (i : Instr) {d : List Char} (hd : d ∈ directionWords i.direction) :
    parseLine (callLine d (styleLetters i.style)) = some (some i) := by
  rw [parseLine, tokenize_callLine (directionWords_isWord d hd) (styleLetters_isWord i.style)]
  exact congrArg (Option.map some) (parseFields_step i hd)

theorem parseLine_dottedListing (i : Instr) : parseLine (dottedListing i) = some (some i) := by
  have hd := directionLetter_mem i.direction
  rw [parseLine, dottedListing, tokenize_dotted (directionWords_isWord _ hd) (styleLetters_isWord i.style)]
  exact congrArg (Option.map some) (parseFields_step i hd)

theorem parseLine_listing (i : Instr) : parseLine (listing i) = some (some i) :=
  parseLine_stepLine i (directionLetter_mem i.direction)

-- CASE AND COMMENTS

theorem parseLine_toLower (line : List Char) : parseLine (line.map Char.toLower) = parseLine line :=
  parseLine_congr (tokenize_map Char.toUpper_toLower_eq_toUpper Char.isAlpha_toLower_eq_isAlpha
    (fun _ hc => Char.toLower_eq_of_not_isUpper fun hu => by simp [Char.isAlpha, hu] at hc) [] line)

theorem parseLine_toUpper (line : List Char) : parseLine (line.map Char.toUpper) = parseLine line :=
  parseLine_congr (tokenize_map Char.toUpper_toUpper_eq_toUpper Char.isAlpha_toUpper_eq_isAlpha
    (fun _ hc => Char.toUpper_eq_of_not_isLower fun hl => by simp [Char.isAlpha, hl] at hc) [] line)

theorem parseLine_append_comment (line comment : List Char) :
    parseLine (line ++ ';' :: comment) = parseLine line :=
  parseLine_congr (tokenize_append_comment [] line comment)

-- PROGRAMS

theorem assemble_listing (is : List Instr) : assemble (is.map listing) = some (is.map encode) := by
  induction is with
  | nil => rfl
  | cons i is ih => simp only [List.map_cons, assemble, parseLine_listing, ih]

/-- Settles O5: each form of a line has the tokens of its words, in capitals, whatever their case and the comment, and a
program is assembled line by line. -/
theorem assemblyLinesNameTheirCommand : Obligations.AssemblyLinesNameTheirCommand :=
  ⟨fun i _ hd => ⟨parseLine_stepLine i hd, parseLine_callLine i hd⟩, parseLine_dottedListing,
    fun line => ⟨parseLine_toLower line, parseLine_toUpper line⟩, parseLine_append_comment, assemble_listing⟩

end Sys2Proof.Machine
end

section
/-! The responses (30_encoding.md R65): one for each word taken, and its code. -/

namespace Sys2Proof.Machine

open Sys2Proof

-- THE WORD TAKEN IN A STEP

theorem takenWord_presented {s : State} {b : Byte} {rest : List HostEvent} (hr : cmdReady s = true)
    (hh : s.hostIn = .present b :: rest) : takenWord s = some b := by
  simp [takenWord, hr, hh]

theorem takenWord_paused {s : State} {rest : List HostEvent} (hh : s.hostIn = .pause :: rest) :
    takenWord s = none := by
  simp [takenWord, hh]

theorem takenWord_nil {s : State} (hh : s.hostIn = []) : takenWord s = none := by
  simp [takenWord, hh]

theorem takenWord_busy {s : State} (hb : s.busy = true) : takenWord s = none := by
  simp [takenWord, cmdReady, hb]

theorem takenWord_faulted {s : State} (hf : s.fault ≠ .none) : takenWord s = none := by
  simp [takenWord, cmdReady, hf]

-- RESPONSES SENT AND OWED

/-- The responses sent, and the one a busy engine owes. -/
def responsesDue (s : State) : Nat := s.responses.length + s.busy.toNat

/-- The end of a sink command leaves the account as it is: the sixth sends the response that was owed. -/
theorem responsesDue_sinkDone {s : State} (k : Fin 6) (c : SinkCmd) (hb : s.busy = true) :
    responsesDue (sinkDone k c s) = responsesDue s := by
  rw [responsesDue, responsesDue, sinkDone_responses, sinkDone_busy]
  split <;> simp [hb]

theorem responsesDue_raiseSinkFault {s : State} (k : Fin 6) (c : SinkCmd) (hb : s.busy = true) :
    responsesDue (raiseSinkFault k c s) = responsesDue s := by
  simp [responsesDue, hb]

theorem responsesDue_latchStep {s : State} (p : Nat) (l : Latches) (hb : s.busy = false) :
    responsesDue (latchStep p l s) = responsesDue s + 1 := by
  simp [responsesDue, hb]

/-- Along a step the account grows exactly with a word taken (30_encoding.md R65). -/
theorem step_responsesDue {s t : State} (h : step s = .next t) :
    responsesDue t = responsesDue s + (if (takenWord s).isSome then 1 else 0) := by
  cases step_cases h with
  | accepted b rest i l ready presented _ _ =>
    rw [takenWord_presented ready presented]
    exact responsesDue_latchStep (s := { s with hostIn := rest }) _ l ((cmdReady_iff s).1 ready).1
  | done rest k l busy _ _ _ =>
    rw [takenWord_busy busy]
    exact responsesDue_sinkDone (s := { s with sinkIn := rest }) k _ busy
  | err rest k l busy _ _ _ =>
    rw [takenWord_busy busy]
    exact responsesDue_raiseSinkFault (s := { s with sinkIn := rest }) k _ busy
  | waited rest busy _ => rw [takenWord_busy busy]; rfl
  | paused rest _ hosted => rw [takenWord_paused hosted]; rfl
  | still hstill =>
    have hnone : takenWord s = none := by
      obtain ⟨hb, -⟩ | ⟨-, hh | hf⟩ := hstill
      · exact takenWord_busy hb
      · exact takenWord_nil hh
      · exact takenWord_faulted hf
    rw [hnone]; rfl

-- THE CODES

/-- With the invariant a step sends nothing, OK with the position and no fault, or a sink fault with its index
(30_encoding.md R65). -/
theorem step_response_coded {s t : State} (hinv : EngineInv s) (h : step s = .next t) :
    t.responses = s.responses ∨ (t.responses = s.responses ++ [respOk t.pos] ∧ t.fault = .none) ∨
      ∃ k : Fin 6, t.responses = s.responses ++ [respSinkFault k] ∧ t.fault = .sinkFault k := by
  cases step_cases h with
  | done rest k l busy _ _ _ =>
    obtain ⟨-, -, hf⟩ := hinv.busyOutstanding busy
    by_cases hk : k.val = 5
    · exact .inr (.inl ⟨by simp [sinkDone_responses, hk], by simpa using hf⟩)
    · exact .inl (by simp [sinkDone_responses, hk])
  | err rest k l _ _ _ _ => exact .inr (.inr ⟨k, rfl, rfl⟩)
  | accepted | waited | paused | still => exact .inl rfl

/-- With the invariant every response sent has one of the two codes. -/
theorem respStatus_of_engineInv {s : State} {r : RespWord} (h : EngineInv s) (hr : r ∈ s.responses) :
    respStatus r = 0b00#2 ∨ respStatus r = 0b10#2 := by
  cases hf : s.fault with
  | none => exact .inl ((responsesMatch_of_fault_none hf).1 h.responsesMatch r hr)
  | sinkFault k =>
    obtain ⟨before, hall, hok⟩ := (responsesMatch_of_sinkFault hf).1 h.responsesMatch
    rw [hall] at hr
    obtain hbefore | rfl := List.mem_append.1 hr |>.imp_right List.mem_singleton.1
    · exact .inl (hok r hbefore)
    · exact .inr (respSinkFault_fields k).1

/-- Settles O38: the account of responses sent and owed, the code of the one sent, and the codes of all. -/
theorem oneCodedResponsePerCommand : Obligations.OneCodedResponsePerCommand := by
  refine ⟨fun s t => step_responsesDue, fun s t hinv hstep => ?_, fun s hinv r hr => ?_⟩
  · refine (step_response_coded hinv hstep).imp_right ?_
    rintro (⟨hsent, hf⟩ | ⟨k, hsent, hf⟩)
    · obtain ⟨hstatus, hvalue⟩ := respOk_fields t.pos
      exact ⟨_, hsent, .inl ⟨hstatus, hvalue, hf⟩⟩
    · obtain ⟨hstatus, hvalue⟩ := respSinkFault_fields k
      exact ⟨_, hsent, .inr ⟨k, hstatus, hvalue, hf⟩⟩
  · obtain hstatus | hstatus := respStatus_of_engineInv hinv hr <;> simp [hstatus]

end Sys2Proof.Machine
end

section
/-! Octants and quadrants as bit slices of the position (40_step_fsm.md R82), and the wrap as the low bits of a signed
add (R85). -/

namespace Sys2Proof

theorem PhaseWidth.half_eq_two_pow (m : PhaseWidth) : m.val / 2 = 2 ^ (m.posBits - 3) := by cases m <;> rfl

theorem PhaseWidth.val_eq_two_pow (m : PhaseWidth) : m.val = 2 ^ (m.posBits - 2) := by cases m <;> rfl

/-- The cycle is what the position register of `W` bits can hold (10_state.md R21). -/
theorem PhaseWidth.four_mul_val_eq_two_pow (m : PhaseWidth) : 4 * m.val = 2 ^ m.posBits := by cases m <;> rfl

/-- The cycle is eight octants (40_step_fsm.md R82). -/
theorem PhaseWidth.four_mul_val_eq_half_mul (m : PhaseWidth) : 4 * m.val = m.val / 2 * 8 := by cases m <;> rfl

end Sys2Proof

namespace Sys2Proof.Machine

open Sys2Proof

-- OCTANT AND QUADRANT

theorem octant_lt {m : PhaseWidth} {s : Nat} (hs : s < 4 * m.val) : octant m s < 8 := by
  rw [m.four_mul_val_eq_half_mul] at hs
  exact Nat.div_lt_of_lt_mul hs

theorem quadrant_lt {m : PhaseWidth} {s : Nat} (hs : s < 4 * m.val) : quadrant m s < 4 :=
  Nat.div_lt_of_lt_mul (by omega)

/-- The top bits of a number are its quotient by the power of two below them. -/
theorem extractLsb'_toNat_of_lt {w start len : Nat} {x : BitVec w} (h : x.toNat < 2 ^ (start + len)) :
    (x.extractLsb' start len).toNat = x.toNat / 2 ^ start := by
  rw [BitVec.extractLsb'_toNat, Nat.shiftRight_eq_div_pow, Nat.mod_eq_of_lt]
  exact Nat.div_lt_of_lt_mul (by rwa [← Nat.pow_add])

theorem octant_eq_extractLsb' {m : PhaseWidth} {p : PosReg} (h : p.toNat < 2 ^ m.posBits) :
    octant m p.toNat = (p.extractLsb' (m.posBits - 3) 3).toNat := by
  rw [octant, m.half_eq_two_pow, extractLsb'_toNat_of_lt]
  cases m <;> exact h

theorem quadrant_eq_extractLsb' {m : PhaseWidth} {p : PosReg} (h : p.toNat < 2 ^ m.posBits) :
    quadrant m p.toNat = (p.extractLsb' (m.posBits - 2) 2).toNat := by
  rw [quadrant, m.val_eq_two_pow, extractLsb'_toNat_of_lt]
  cases m <;> exact h

/-- The odd/even test is one bit of the position (40_step_fsm.md R83). -/
theorem octantOdd_eq_getLsbD (m : PhaseWidth) (p : PosReg) :
    octantOdd m p.toNat = p.getLsbD (m.posBits - 3) := by
  rw [octantOdd, octant, m.half_eq_two_pow, BitVec.getLsbD, Nat.testBit_eq_decide_div_mod_eq]
  rfl

/-- Settles O20: `M` and `M/2` are powers of two, and the position has three bits above `M/2` and two above `M`. -/
theorem octantsAreBitSlices : Obligations.OctantsAreBitSlices :=
  ⟨fun _ _ hs => ⟨rfl, octant_lt hs, rfl, quadrant_lt hs⟩,
    fun p => ⟨octant_eq_extractLsb' (m := .m16) p.isLt, octantOdd_eq_getLsbD .m16 p,
      quadrant_eq_extractLsb' (m := .m16) p.isLt⟩,
    fun p hp => ⟨octant_eq_extractLsb' (m := .m8) hp, octantOdd_eq_getLsbD .m8 p,
      quadrant_eq_extractLsb' (m := .m8) hp⟩⟩

-- THE WRAP

theorem wrapPosition_eq_toNat_ofInt (m : PhaseWidth) (s : Nat) (delta : Int) :
    wrapPosition m s delta = (BitVec.ofInt m.posBits (s + delta)).toNat := by
  have hcycle : (4 * m.val : Int) = ((2 ^ m.posBits : Nat) : Int) := by
    rw [← m.four_mul_val_eq_two_pow]
    rfl
  rw [wrapPosition, BitVec.toNat_ofInt, hcycle, Int.add_emod_right]

/-- No command moves further than one quadrant (40_step_fsm.md R83). -/
theorem neg_val_le_signedDelta (m : PhaseWidth) (d : Direction) (y : Style) (s : Nat) :
    -(m.val : Int) ≤ signedDelta d (advance m y s) := by
  have := advance_le m y s
  cases d <;> simp only [signedDelta] <;> omega

/-- Settles O21: the cycle is a power of two, and no command moves back further than `M`. -/
theorem wrapIsLowBitsOfTheAdd : Obligations.WrapIsLowBitsOfTheAdd := by
  intro m d y s _
  have := neg_val_le_signedDelta m d y s
  exact ⟨wrapPosition_eq_toNat_ofInt m s _, by omega⟩

end Sys2Proof.Machine
end

section
/-! The eight commands (40_step_fsm.md R90 to R97): what a ready engine latches for a style at its new position, and the
frame of the accept (R80). -/

namespace Sys2Proof.Machine

open Sys2Proof

-- THE ADVANCE, STYLE BY STYLE

theorem advance_single (m : PhaseWidth) (s : Nat) :
    advance m .single s = if s / (m.val / 2) % 2 = 1 then m.val / 2 else m.val := by
  simp [advance, octantOdd, octant]

theorem advance_double (m : PhaseWidth) (s : Nat) :
    advance m .double s = if s / (m.val / 2) % 2 = 1 then m.val else m.val / 2 := by
  simp [advance, octantOdd, octant]

-- WHAT A STYLE LATCHES

theorem scaleDuty_eq_append (a : Magnitude) : scaleDuty a = a ++ 0#4 := by
  have happend : (a ++ 0#4).toNat = a.toNat * 16 := by
    rw [BitVec.toNat_append, Nat.shiftLeft_eq]
    exact Nat.or_zero _
  exact BitVec.eq_of_toNat_eq ((scaleDuty_toNat a).trans happend.symm)

/-- In the cycle the reduction of R141 changes nothing: the mask is the octant's own entry. -/
theorem octMask_of_lt {m : PhaseWidth} {s : Nat} (hs : s < 4 * m.val) : octMask m s = octTable[octant m s]? := by
  rw [octMask, Nat.mod_eq_of_lt (octant_lt hs)]

/-- Single, Double and Interleave latch the full duty and the octant's mask (41_curve_lut.md R124, 42_latch_encoder.md
R141). -/
theorem drive_of_ne_microstep {c : EngineConfig} {y : Style} {s : Nat} {mask : Mask} (hy : y ≠ .microstep)
    (hmask : octMask c.m s = some mask) : drive c y s = some ⟨4080#12, 4080#12, mask⟩ := by
  cases y with
  | single | double | interleave =>
    simp only [drive, magnitudes, coilMask, hmask]
    rfl
  | microstep => exact absurd rfl hy

/-- Microstep latches the scaled curve entries and the quadrant's mask (41_curve_lut.md R126, 42_latch_encoder.md
R142). -/
theorem drive_microstep {c : EngineConfig} {s : Nat} {a b : Magnitude} {mask : Mask}
    (hcurve : curveLookup c s = some (a, b)) (hmask : quadMask c.m s = some mask) :
    drive c .microstep s = some ⟨a ++ 0#4, b ++ 0#4, mask⟩ := by
  simp only [drive, magnitudes, coilMask, hcurve, hmask, scaleDuty_eq_append]

/-- Quadrant and offset of a position in the `q`-th row of the lookup. -/
theorem div_mod_of_row (s m q : Nat) (hlo : q * m ≤ s) (hhi : s < (q + 1) * m) :
    s / m = q ∧ s % m = s - q * m := by
  obtain rfl : s / m = q := Nat.div_eq_of_lt_le hlo hhi
  exact ⟨rfl, Nat.mod_eq_sub_div_mul⟩

/-- The lookup in its offset form (41_curve_lut.md R125): the four rows differ by the parity of the quadrant alone. -/
theorem curveLookup_eq_curvePair {c : EngineConfig} {s : Nat} (hs : s < 4 * c.m.val) :
    curveLookup c s = curvePair c (if s / c.m.val % 2 = 0 then c.m.val - s % c.m.val else s % c.m.val)
      (if s / c.m.val % 2 = 0 then s % c.m.val else c.m.val - s % c.m.val) := by
  simp only [curveLookup]
  by_cases h0 : s < c.m.val
  · obtain ⟨hq, hr⟩ := div_mod_of_row s c.m.val 0 (by omega) (by omega)
    simp [h0, hq, hr]
  by_cases h1 : s < 2 * c.m.val
  · obtain ⟨hq, hr⟩ := div_mod_of_row s c.m.val 1 (by omega) (by omega)
    have hindex : c.m.val - (s - c.m.val) = 2 * c.m.val - s := by omega
    simp [h0, h1, hq, hr, hindex]
  by_cases h2 : s < 3 * c.m.val
  · obtain ⟨hq, hr⟩ := div_mod_of_row s c.m.val 2 (by omega) (by omega)
    have hindex : c.m.val - (s - 2 * c.m.val) = 3 * c.m.val - s := by omega
    simp [h0, h1, h2, hq, hr, hindex]
  · obtain ⟨hq, hr⟩ := div_mod_of_row s c.m.val 3 (by omega) (by omega)
    have hindex : c.m.val - (s - 3 * c.m.val) = 4 * c.m.val - s := by omega
    simp [h0, h1, h2, hs, hq, hr, hindex]

/-- Both indices of the offset form lie in a legal table (41_curve_lut.md R127). -/
theorem curveLookup_reads {c : EngineConfig} {s : Nat} (hc : c.legal = true) (hs : s < 4 * c.m.val) :
    ∃ a b : Magnitude, curveLookup c s = some (a, b) ∧
      c.curve[if s / c.m.val % 2 = 0 then c.m.val - s % c.m.val else s % c.m.val]? = some a ∧
      c.curve[if s / c.m.val % 2 = 0 then s % c.m.val else c.m.val - s % c.m.val]? = some b := by
  have hr : s % c.m.val < c.m.val := Nat.mod_lt s (by omega)
  obtain ⟨⟨a, b⟩, hpair⟩ := curvePair_isSome hc
    (i := if s / c.m.val % 2 = 0 then c.m.val - s % c.m.val else s % c.m.val)
    (j := if s / c.m.val % 2 = 0 then s % c.m.val else c.m.val - s % c.m.val)
    (by split <;> omega) (by split <;> omega)
  exact ⟨a, b, (curveLookup_eq_curvePair hs).trans hpair, curvePair_reads hpair⟩

-- THE ACCEPT OF A READY ENGINE

theorem exec_ready {i : Instr} {s : State} {l : Latches} (hb : s.busy = false) (hf : s.fault = .none)
    (hl : drive s.cfg i.style (newPosition s.cfg.m i.direction i.style s.pos.toNat) = some l) :
    exec i s = .next (latchStep (newPosition s.cfg.m i.direction i.style s.pos.toNat) l s) := by
  rw [exec_eq_accept, accept, if_pos ((cmdReady_iff s).2 ⟨hb, hf⟩)]
  simp only [hl]

/-- A Single, Double or Interleave command from a ready state whose new position is `p`. -/
theorem exec_of_ne_microstep {i : Instr} {s : State} {p : Nat} (hy : i.style ≠ .microstep) (hb : s.busy = false)
    (hf : s.fault = .none) (hp : newPosition s.cfg.m i.direction i.style s.pos.toNat = p) :
    ∃ mask : Mask, octTable[p / (s.cfg.m.val / 2)]? = some mask ∧
      exec i s = .next (latchStep p ⟨4080#12, 4080#12, mask⟩ s) := by
  subst hp
  have hlt := newPosition_lt s.cfg.m i.direction i.style s.pos.toNat
  obtain ⟨mask, hmask⟩ := octMask_isSome s.cfg.m (newPosition s.cfg.m i.direction i.style s.pos.toNat)
  exact ⟨mask, (octMask_of_lt hlt).symm.trans hmask, exec_ready hb hf (drive_of_ne_microstep hy hmask)⟩

/-- A Microstep command from a ready state whose new position is `p`. -/
theorem exec_of_microstep {i : Instr} {s : State} {p : Nat} (hy : i.style = .microstep) (hc : s.cfg.legal = true)
    (hb : s.busy = false) (hf : s.fault = .none)
    (hp : newPosition s.cfg.m i.direction .microstep s.pos.toNat = p) :
    ∃ (a b : Magnitude) (mask : Mask),
      s.cfg.curve[if p / s.cfg.m.val % 2 = 0 then s.cfg.m.val - p % s.cfg.m.val else p % s.cfg.m.val]? = some a ∧
      s.cfg.curve[if p / s.cfg.m.val % 2 = 0 then p % s.cfg.m.val else s.cfg.m.val - p % s.cfg.m.val]? = some b ∧
      quadTable[p / s.cfg.m.val]? = some mask ∧
      exec i s = .next (latchStep p ⟨a ++ 0#4, b ++ 0#4, mask⟩ s) := by
  subst hp
  have hlt := newPosition_lt s.cfg.m i.direction .microstep s.pos.toNat
  obtain ⟨mask, hmask⟩ := quadMask_isSome hlt
  obtain ⟨a, b, hcurve, ha, hb'⟩ := curveLookup_reads hc hlt
  refine ⟨a, b, mask, ha, hb', hmask, ?_⟩
  have hl := drive_microstep hcurve hmask
  rw [← hy] at hl ⊢
  exact exec_ready hb hf hl

-- THE EIGHT COMMANDS

/-- Settles O8: the accept of a full-duty style, forward by the Single advance. -/
theorem stepForwardSingleResult : Obligations.StepForwardSingleResult := fun _ hb hf =>
  exec_of_ne_microstep (by decide) hb hf ((newPosition_forward ..).trans (by rw [Instr.style, advance_single]))

/-- Settles O9: the accept of a full-duty style, backward by the Single advance. -/
theorem stepBackwardSingleResult : Obligations.StepBackwardSingleResult := fun _ hb hf =>
  exec_of_ne_microstep (by decide) hb hf ((newPosition_backward ..).trans (by rw [Instr.style, advance_single]))

/-- Settles O10: the accept of a full-duty style, forward by the Double advance. -/
theorem stepForwardDoubleResult : Obligations.StepForwardDoubleResult := fun _ hb hf =>
  exec_of_ne_microstep (by decide) hb hf ((newPosition_forward ..).trans (by rw [Instr.style, advance_double]))

/-- Settles O11: the accept of a full-duty style, backward by the Double advance. -/
theorem stepBackwardDoubleResult : Obligations.StepBackwardDoubleResult := fun _ hb hf =>
  exec_of_ne_microstep (by decide) hb hf ((newPosition_backward ..).trans (by rw [Instr.style, advance_double]))

/-- Settles O12: the accept of a full-duty style, forward by half a quadrant. -/
theorem stepForwardInterleaveResult : Obligations.StepForwardInterleaveResult := fun _ hb hf =>
  exec_of_ne_microstep (by decide) hb hf (newPosition_forward ..)

/-- Settles O13: the accept of a full-duty style, backward by half a quadrant. -/
theorem stepBackwardInterleaveResult : Obligations.StepBackwardInterleaveResult := fun _ hb hf =>
  exec_of_ne_microstep (by decide) hb hf (newPosition_backward ..)

/-- Settles O14: the accept of a microstep, one position forward. -/
theorem stepForwardMicrostepResult : Obligations.StepForwardMicrostepResult := fun _ hc hb hf =>
  exec_of_microstep rfl hc hb hf (newPosition_forward ..)

/-- Settles O15: the accept of a microstep, one position backward. -/
theorem stepBackwardMicrostepResult : Obligations.StepBackwardMicrostepResult := fun _ hc hb hf =>
  exec_of_microstep rfl hc hb hf (newPosition_backward ..)

/-- Settles O16: an engine that is not ready changes nothing, and a ready one is latched. -/
theorem acceptFrame : Obligations.AcceptFrame := by
  intro i s t h
  rw [exec_eq_accept] at h
  obtain ⟨-, rfl⟩ | ⟨-, l, -, rfl⟩ := accept_cases h
  · exact ⟨rfl, rfl, rfl, rfl, rfl, rfl, rfl, fun _ => rfl⟩
  · exact ⟨rfl, rfl, rfl, rfl, rfl, rfl, rfl, fun _ => rfl⟩

end Sys2Proof.Machine
end

section
/-! The position laws (40_step_fsm.md R87 to R89). A Single, Double or Interleave command keeps the offset of the
position within its octant and moves the octant round the ring of eight; so each law of a run of such commands is a
finite fact about octants. -/

namespace Sys2Proof.Machine

open Sys2Proof

-- THE RING OF OCTANTS

/-- The octant of a position, in the ring of eight. -/
def octantOf (m : PhaseWidth) (s : Nat) : Fin 8 := Fin.ofNat 8 (octant m s)

/-- How many octants a style advances from octant `o` (40_step_fsm.md R83). A microstep moves by one position
and has no such number. -/
def octantAdvance (y : Style) (o : Fin 8) : Fin 8 :=
  match y with
  | .single => if o.val % 2 = 1 then 1 else 2
  | .double => if o.val % 2 = 1 then 2 else 1
  | .interleave => 1
  | .microstep => 0

/-- The octant after a Single, Double or Interleave command. -/
def nextOctant (d : Direction) (y : Style) (o : Fin 8) : Fin 8 :=
  match d with
  | .forward => o + octantAdvance y o
  | .backward => o - octantAdvance y o

/-- The position at offset `r` of octant `o`. -/
def place (m : PhaseWidth) (r : Nat) (o : Fin 8) : Nat := o.val * (m.val / 2) + r

theorem octant_place {m : PhaseWidth} {r : Nat} (hr : r < m.val / 2) (o : Fin 8) : octant m (place m r o) = o.val := by
  rw [octant, place, Nat.mul_comm, Nat.mul_add_div (by omega), Nat.div_eq_of_lt hr, Nat.add_zero]

theorem octantOf_place {m : PhaseWidth} {r : Nat} (hr : r < m.val / 2) (o : Fin 8) : octantOf m (place m r o) = o := by
  rw [octantOf, octant_place hr, Fin.ofNat_val_eq_self]

theorem place_inj {m : PhaseWidth} {r : Nat} (hr : r < m.val / 2) {o o' : Fin 8} :
    place m r o = place m r o' ↔ o = o' :=
  ⟨fun h => by rw [← octantOf_place hr o, h, octantOf_place hr], congrArg _⟩

theorem octantOf_val {m : PhaseWidth} {s : Nat} (hs : s < 4 * m.val) : (octantOf m s).val = octant m s :=
  Nat.mod_eq_of_lt (octant_lt hs)

theorem offset_lt (m : PhaseWidth) (s : Nat) : s % (m.val / 2) < m.val / 2 :=
  Nat.mod_lt s (by cases m <;> decide)

/-- Every position of the cycle is its octant and its offset. -/
theorem place_octantOf {m : PhaseWidth} {s : Nat} (hs : s < 4 * m.val) :
    place m (s % (m.val / 2)) (octantOf m s) = s := by
  rw [place, octantOf_val hs]
  exact Nat.div_add_mod' s (m.val / 2)

theorem octMask_place {m : PhaseWidth} {r : Nat} (hr : r < m.val / 2) (o : Fin 8) :
    octMask m (place m r o) = octTable[o.val]? := by
  rw [octMask, octant_place hr, Nat.mod_eq_of_lt o.isLt]

-- ONE COMMAND

theorem advance_eq_octantAdvance {y : Style} (hy : y ≠ .microstep) (m : PhaseWidth) (s : Nat) :
    advance m y s = (octantAdvance y (octantOf m s)).val * (m.val / 2) := by
  have hval : m.val = 2 * (m.val / 2) := by cases m <;> rfl
  have hparity : (octantOf m s).val % 2 = octant m s % 2 := Nat.mod_mod_of_dvd _ (by decide)
  cases y with
  | single | double =>
    simp only [advance, octantOdd, octantAdvance, hparity, beq_iff_eq]
    split <;> simp [← hval]
  | interleave => exact (Nat.one_mul _).symm
  | microstep => exact absurd rfl hy

/-- A shift by whole octants keeps the offset and moves the octant. -/
theorem add_mul_half_mod (m : PhaseWidth) (s k : Nat) :
    (s + k * (m.val / 2)) % (4 * m.val) = place m (s % (m.val / 2)) (octantOf m s + Fin.ofNat 8 k) := by
  have hH : 0 < m.val / 2 := Nat.zero_lt_of_lt (offset_lt m s)
  have hoctant : (octantOf m s + Fin.ofNat 8 k).val = (s / (m.val / 2) + k) % 8 := (Nat.add_mod ..).symm
  rw [m.four_mul_val_eq_half_mul, Nat.mod_mul, Nat.add_mul_mod_self_right, Nat.add_mul_div_right _ _ hH, place, hoctant,
    Nat.add_comm, Nat.mul_comm]

/-- A Single, Double or Interleave command keeps the offset and moves the octant, from any position of the register. -/
theorem newPosition_eq_place {y : Style} (hy : y ≠ .microstep) (m : PhaseWidth) (d : Direction) (s : Nat) :
    newPosition m d y s = place m (s % (m.val / 2)) (nextOctant d y (octantOf m s)) := by
  have hadv := advance_eq_octantAdvance hy m s
  cases d with
  | forward => rw [newPosition_forward, hadv, add_mul_half_mod, Fin.ofNat_val_eq_self, nextOctant]
  | backward =>
    have hsub : s + 4 * m.val - advance m y s = s + (8 - (octantAdvance y (octantOf m s)).val) * (m.val / 2) := by
      rw [hadv, m.four_mul_val_eq_half_mul, Nat.sub_mul, Nat.mul_comm _ 8, Nat.add_sub_assoc]
      exact Nat.mul_le_mul_right _ (Fin.is_le' ..)
    have hoctant : octantOf m s + Fin.ofNat 8 (8 - (octantAdvance y (octantOf m s)).val) =
        octantOf m s - octantAdvance y (octantOf m s) := by
      generalize octantOf m s = o, octantAdvance y _ = k
      revert o k; decide
    rw [newPosition_backward, hsub, add_mul_half_mod, hoctant, nextOctant]

theorem newPosition_place {y : Style} (hy : y ≠ .microstep) {m : PhaseWidth} {r : Nat} (hr : r < m.val / 2)
    (d : Direction) (o : Fin 8) : newPosition m d y (place m r o) = place m r (nextOctant d y o) := by
  have hoffset : place m r o % (m.val / 2) = r := by rw [place, Nat.mul_add_mod_self_right, Nat.mod_eq_of_lt hr]
  rw [newPosition_eq_place hy, octantOf_place hr, hoffset]

/-- A run of Single, Double or Interleave commands keeps the offset and moves the octant. -/
theorem newPosition_iterate {y : Style} (hy : y ≠ .microstep) {m : PhaseWidth} {s : Nat} (hs : s < 4 * m.val)
    (d : Direction) (n : Nat) :
    (newPosition m d y)^[n] s = place m (s % (m.val / 2)) ((nextOctant d y)^[n] (octantOf m s)) := by
  have hcommand : Function.Semiconj (place m (s % (m.val / 2))) (nextOctant d y) (newPosition m d y) :=
    fun o => (newPosition_place hy (offset_lt m s) d o).symm
  conv_lhs => rw [← place_octantOf hs]
  exact (hcommand.iterate_right n (octantOf m s)).symm

/-- Such a run returns exactly when its octants do. -/
theorem newPosition_iterate_eq_self_iff {y : Style} (hy : y ≠ .microstep) {m : PhaseWidth} {s : Nat}
    (hs : s < 4 * m.val) (d : Direction) (n : Nat) :
    (newPosition m d y)^[n] s = s ↔ (nextOctant d y)^[n] (octantOf m s) = octantOf m s := by
  rw [newPosition_iterate hy hs, ← place_inj (offset_lt m s), place_octantOf hs]

-- THE OCTANTS A STYLE VISITS

theorem octant_newPosition {y : Style} (hy : y ≠ .microstep) (m : PhaseWidth) (d : Direction) (s : Nat) :
    octant m (newPosition m d y s) = (nextOctant d y (octantOf m s)).val := by
  rw [newPosition_eq_place hy, octant_place (offset_lt m s)]

theorem nextOctant_single_even (d : Direction) (o : Fin 8) : (nextOctant d .single o).val % 2 = 0 := by
  revert o; cases d <;> decide

theorem nextOctant_double_odd (d : Direction) (o : Fin 8) : (nextOctant d .double o).val % 2 = 1 := by
  revert o; cases d <;> decide

/-- After a Single command the octant is even (40_step_fsm.md R87). -/
theorem octant_newPosition_single (m : PhaseWidth) (d : Direction) (s : Nat) :
    octant m (newPosition m d .single s) % 2 = 0 := by
  rw [octant_newPosition (by decide), nextOctant_single_even]

/-- After a Double command the octant is odd (40_step_fsm.md R87). -/
theorem octant_newPosition_double (m : PhaseWidth) (d : Direction) (s : Nat) :
    octant m (newPosition m d .double s) % 2 = 1 := by
  rw [octant_newPosition (by decide), nextOctant_double_odd]

/-- The entries of the even octants (42_latch_encoder.md R141). -/
theorem octTable_even : ∀ o : Fin 8, o.val % 2 = 0 →
    ∀ k ∈ octTable[o.val]?, k ∈ [0x1#4, 0x2#4, 0x4#4, 0x8#4] := by
  decide

/-- The entries of the odd octants (42_latch_encoder.md R141). -/
theorem octTable_odd : ∀ o : Fin 8, o.val % 2 = 1 →
    ∀ k ∈ octTable[o.val]?, k ∈ [0x3#4, 0x6#4, 0xC#4, 0x9#4] := by
  decide

theorem drive_mask {c : EngineConfig} {y : Style} {s : Nat} {l : Latches} (h : drive c y s = some l) :
    coilMask c.m y s = some l.mask := by
  unfold drive at h
  split at h
  · cases h
    assumption
  · cases h

theorem coilMask_of_ne_microstep {y : Style} (hy : y ≠ .microstep) (m : PhaseWidth) (s : Nat) :
    coilMask m y s = octMask m s := by
  cases y with
  | single | double | interleave => rfl
  | microstep => exact absurd rfl hy

theorem nextOctant_single_visits (d : Direction) (o : Fin 8) : ∀ k ∈ [0x1#4, 0x2#4, 0x4#4, 0x8#4],
    ∃ n : Fin 4, octTable[((nextOctant d .single)^[n.val + 1] o).val]? = some k := by
  revert o; cases d <;> decide

theorem nextOctant_double_visits (d : Direction) (o : Fin 8) : ∀ k ∈ [0x3#4, 0x6#4, 0xC#4, 0x9#4],
    ∃ n : Fin 4, octTable[((nextOctant d .double)^[n.val + 1] o).val]? = some k := by
  revert o; cases d <;> decide

theorem nextOctant_interleave_visits (d : Direction) (o : Fin 8) :
    ∀ o' : Fin 8, ∃ n : Fin 8, (nextOctant d .interleave)^[n.val + 1] o = o' := by
  revert o; cases d <;> decide

/-- A Single, Double or Interleave command latches the mask of the octant it lands on (42_latch_encoder.md R141). -/
theorem octTable_of_drive {c : EngineConfig} {d : Direction} {y : Style} {s : Nat} {l : Latches} (hy : y ≠ .microstep)
    (h : drive c y (newPosition c.m d y s) = some l) :
    octTable[(nextOctant d y (octantOf c.m s)).val]? = some l.mask := by
  rw [← octMask_place (offset_lt c.m s), ← newPosition_eq_place hy, ← coilMask_of_ne_microstep hy, drive_mask h]

/-- Settles O27: one command fixes the parity of the octant and with it the mask, and a run goes round the ring. -/
theorem styleAttractors : Obligations.StyleAttractors := by
  refine ⟨fun i s t hb hf h => ?_, fun m d s hs => ⟨fun k hk => ?_, fun k hk => ?_, fun o ho => ?_⟩⟩
  · obtain ⟨l, hl, rfl⟩ := exec_ready_cases ((cmdReady_iff s).2 ⟨hb, hf⟩) h
    rw [latchStep_pos, ofNat_newPosition_toNat, latchStep_lat]
    refine ⟨fun hy => ?_, fun hy => ?_⟩ <;> rw [hy] at hl ⊢
    · exact ⟨octant_newPosition_single .., l, rfl,
        octTable_even _ (nextOctant_single_even ..) _ (octTable_of_drive (by decide) hl)⟩
    · exact ⟨octant_newPosition_double .., l, rfl,
        octTable_odd _ (nextOctant_double_odd ..) _ (octTable_of_drive (by decide) hl)⟩
  · obtain ⟨n, hn⟩ := nextOctant_single_visits d (octantOf m s) k hk
    exact ⟨n.val + 1, by omega, by omega,
      by rw [newPosition_iterate (by decide) hs, octMask_place (offset_lt m s), hn]⟩
  · obtain ⟨n, hn⟩ := nextOctant_double_visits d (octantOf m s) k hk
    exact ⟨n.val + 1, by omega, by omega,
      by rw [newPosition_iterate (by decide) hs, octMask_place (offset_lt m s), hn]⟩
  · obtain ⟨n, hn⟩ := nextOctant_interleave_visits d (octantOf m s) ⟨o, ho⟩
    exact ⟨n.val + 1, by omega, by omega,
      by rw [newPosition_iterate (by decide) hs, octant_place (offset_lt m s), hn]⟩

-- BACKWARD AFTER FORWARD

/-- The styles and octants from which the step back undoes the step forward (40_step_fsm.md R88). -/
def Undoes (y : Style) (o : Nat) : Prop :=
  y = .interleave ∨ y = .microstep ∨ (y = .single ∧ o % 2 = 0) ∨ (y = .double ∧ o % 2 = 1)

/-- On the ring, forward and then back returns, or ends one octant below. -/
theorem nextOctant_backward_forward (y : Style) (o : Fin 8) :
    (Undoes y o.val ∧ nextOctant .backward y (nextOctant .forward y o) = o) ∨
      (¬ Undoes y o.val ∧
        nextOctant .backward y (nextOctant .forward y o) = nextOctant .backward .interleave o) := by
  unfold Undoes
  revert o; cases y <;> decide

theorem newPosition_backward_forward_microstep {m : PhaseWidth} {s : Nat} (hs : s < 4 * m.val) :
    newPosition m .backward .microstep (newPosition m .forward .microstep s) = s := by
  simp only [newPosition_backward, newPosition_forward, advance]
  rcases PhaseWidth_val_cases m with hm | hm <;> rw [hm] at hs ⊢ <;> omega

/-- Forward and then back returns, or ends half a quadrant below (40_step_fsm.md R88). -/
theorem newPosition_backward_forward (y : Style) {m : PhaseWidth} {s : Nat} (hs : s < 4 * m.val) :
    (Undoes y (octant m s) ∧ newPosition m .backward y (newPosition m .forward y s) = s) ∨
      (¬ Undoes y (octant m s) ∧ newPosition m .backward y (newPosition m .forward y s) =
        newPosition m .backward .interleave s) := by
  by_cases hy : y = .microstep
  · subst hy
    exact .inl ⟨.inr (.inl rfl), newPosition_backward_forward_microstep hs⟩
  · have hr := offset_lt m s
    have hforward := newPosition_eq_place hy m .forward s
    have hinterleave := newPosition_eq_place (show Style.interleave ≠ .microstep by decide) m .backward s
    have hring := nextOctant_backward_forward y (octantOf m s)
    rw [octantOf_val hs] at hring
    rw [hforward, newPosition_place hy hr, hinterleave, place_inj hr]
    refine hring.imp_left (And.imp_right fun hback => ?_)
    rw [hback, place_octantOf hs]

theorem newPosition_backward_interleave_ne {m : PhaseWidth} {s : Nat} (hs : s < 4 * m.val) :
    newPosition m .backward .interleave s ≠ s := by
  rw [newPosition_backward, advance]
  rcases PhaseWidth_val_cases m with hm | hm <;> rw [hm] at hs ⊢ <;> omega

/-- Settles O28: the two accepts apply the two position laws in turn. -/
theorem backwardUndoesForward : Obligations.BackwardUndoesForward := by
  intro y s t u v hinv hs ht hu hcfg hpos hv
  obtain ⟨l, -, rfl⟩ := exec_ready_cases hs ht
  obtain ⟨l', -, rfl⟩ := exec_ready_cases hu hv
  have hcycle : s.pos.toNat < 4 * s.cfg.m.val := hinv.posInCycle
  simp only [latchStep_pos, Instr.ofFields_direction, Instr.ofFields_style, hcfg, ne_eq, ← BitVec.toNat_inj]
    at hpos ⊢
  rw [hpos, ofNat_newPosition_toNat, ofNat_newPosition_toNat]
  obtain ⟨hundoes, hback⟩ | ⟨hnot, hback⟩ := newPosition_backward_forward y hcycle
  · exact ⟨iff_of_true hback hundoes, fun hne => absurd hback hne⟩
  · rw [hback]
    exact ⟨iff_of_false (newPosition_backward_interleave_ne hcycle) hnot, fun _ => newPosition_backward ..⟩

-- THE CLOSURE OF THE CYCLE

/-- A Forward microstep run goes round the cycle one position at a time. -/
theorem newPosition_iterate_microstep {m : PhaseWidth} {s : Nat} (hs : s < 4 * m.val) (n : Nat) :
    (newPosition m .forward .microstep)^[n] s = (s + n) % (4 * m.val) := by
  induction n with
  | zero => exact (Nat.mod_eq_of_lt hs).symm
  | succ n ih => rw [Function.iterate_succ_apply', ih, newPosition_forward, advance, Nat.mod_add_mod, Nat.add_assoc]

theorem minimalPeriod_nextOctant_interleave (o : Fin 8) :
    Function.minimalPeriod (nextOctant .forward .interleave) o = 2 ^ 3 :=
  Function.minimalPeriod_eq_prime_pow (p := 2) (k := 2) (by revert o; decide) (by revert o; decide)

theorem minimalPeriod_nextOctant_single {o : Fin 8} (ho : o.val % 2 = 0) :
    Function.minimalPeriod (nextOctant .forward .single) o = 2 ^ 2 :=
  Function.minimalPeriod_eq_prime_pow (p := 2) (k := 1) (by revert o; decide) (by revert o; decide)

theorem minimalPeriod_nextOctant_double {o : Fin 8} (ho : o.val % 2 = 1) :
    Function.minimalPeriod (nextOctant .forward .double) o = 2 ^ 2 :=
  Function.minimalPeriod_eq_prime_pow (p := 2) (k := 1) (by revert o; decide) (by revert o; decide)

/-- A run of Single, Double or Interleave commands returns exactly after the turns of its ring. -/
theorem newPosition_iterate_eq_self_iff_dvd {y : Style} (hy : y ≠ .microstep) {m : PhaseWidth} {s p : Nat}
    (hs : s < 4 * m.val) (d : Direction) (n : Nat)
    (hp : Function.minimalPeriod (nextOctant d y) (octantOf m s) = p) :
    (newPosition m d y)^[n] s = s ↔ p ∣ n := by
  rw [newPosition_iterate_eq_self_iff hy hs, ← hp]
  exact Function.isPeriodicPt_iff_minimalPeriod_dvd

/-- What every command does to the parity of the octant, no run undoes. -/
theorem iterate_ne_self_of_octant (m : PhaseWidth) {f : Nat → Nat} {s n : Nat} (hn : 1 ≤ n)
    (h : ∀ p, octant m (f p) % 2 ≠ octant m s % 2) : f^[n] s ≠ s := by
  obtain ⟨k, rfl⟩ := Nat.exists_eq_add_of_le' hn
  intro heq
  rw [Function.iterate_succ_apply'] at heq
  exact h _ (by rw [heq])

/-- Settles O29: each closing style goes round its ring, whose length is a power of two; the two others leave the
parity of their first octant for good. -/
theorem cycleClosure : Obligations.CycleClosure := by
  refine ⟨fun m s n hs => ⟨?_, ?_, fun ho => ?_, fun ho => ?_, fun ho hn => ?_, fun ho hn => ?_⟩, fun m => ?_⟩
  · exact newPosition_iterate_eq_self_iff_dvd (by decide) hs _ n (minimalPeriod_nextOctant_interleave _)
  · rw [newPosition_iterate_microstep hs, ← Nat.add_modEq_left_iff (a := s), Nat.ModEq, Nat.mod_eq_of_lt hs]
  · exact newPosition_iterate_eq_self_iff_dvd (by decide) hs _ n
      (minimalPeriod_nextOctant_single (by rw [octantOf_val hs, ho]))
  · exact newPosition_iterate_eq_self_iff_dvd (by decide) hs _ n
      (minimalPeriod_nextOctant_double (by rw [octantOf_val hs, ho]))
  · exact iterate_ne_self_of_octant m hn fun p => by simp [octant_newPosition_single, ho]
  · exact iterate_ne_self_of_octant m hn fun p => by simp [octant_newPosition_double, ho]
  · rw [newPosition_iterate (by decide) (by cases m <;> decide)]
    cases m <;> decide

end Sys2Proof.Machine
end

section
/-! The end of a step (40_step_fsm.md R86). -/

namespace Sys2Proof.Machine

open Sys2Proof

/-- Settles O36: with the invariant the latches of a busy engine are written, so `done` ends the sixth command, and the
position it answers is the register's. -/
theorem sixthCompletionAnswersPosition : Obligations.SixthCompletionAnswersPosition := by
  intro s rest hinv hb hk ha
  obtain ⟨-, l, -, hl, -⟩ := outstanding_of_engineInv hinv hb
  have hstep := step_done (k := 5) hb hk hl ha
  rw [sinkDone_last _ _ rfl] at hstep
  obtain ⟨hstatus, hvalue⟩ := respOk_fields s.pos
  exact ⟨_, respOk s.pos, hstep, rfl, rfl, hstatus, hvalue, rfl, hvalue.symm⟩

end Sys2Proof.Machine
end

section
/-! The curve lookup (41_curve_lut.md): which commands read the table, what the lookup reads in each quadrant, and which
tables construction takes. -/

namespace Sys2Proof.Machine

open Sys2Proof

-- THE DUTY

/-- Settles O25: the scaled magnitude is the magnitude with four zero bits appended, and a magnitude is at most 255. -/
theorem dutyScaling : Obligations.DutyScaling := by
  refine ⟨fun a => ⟨scaleDuty_toNat a, scaleDuty_eq_append a, ?_⟩, rfl⟩
  have := a.isLt
  rw [scaleDuty_toNat]
  omega

-- WHO READS THE TABLE

/-- Only Microstep reads the table (41_curve_lut.md R124). -/
theorem drive_congr_curve {y : Style} (hy : y ≠ .microstep) (c : EngineConfig) (curve : List Magnitude) (s : Nat) :
    drive { c with curve := curve } y s = drive c y s := by
  cases y with
  | single | double | interleave => rfl
  | microstep => exact absurd rfl hy

/-- Single, Double and Interleave latch nothing but full duties (41_curve_lut.md R124). -/
theorem full_duties_of_drive {c : EngineConfig} {y : Style} {s : Nat} {l : Latches} (hy : y ≠ .microstep)
    (hl : drive c y s = some l) : ∃ mask, l = ⟨4080#12, 4080#12, mask⟩ := by
  obtain ⟨mask, hmask⟩ := octMask_isSome c.m s
  exact ⟨mask, Option.some.inj (hl.symm.trans (drive_of_ne_microstep hy hmask))⟩

/-- Settles O18: an engine that is not ready changes nothing, and a ready one latches a drive that no table enters. -/
theorem onlyMicrostepReadsTheCurve : Obligations.OnlyMicrostepReadsTheCurve := by
  intro i s t curve hy h
  rw [exec_eq_accept] at h
  obtain ⟨hheld, rfl⟩ | ⟨hready, l, hl, rfl⟩ := accept_cases h
  · exact ⟨(exec_eq_accept ..).trans (accept_held hheld), fun hready => by simp [hheld] at hready⟩
  · obtain ⟨hb, hf⟩ := (cmdReady_iff s).1 hready
    obtain ⟨mask, rfl⟩ := full_duties_of_drive hy hl
    exact ⟨exec_ready hb hf ((drive_congr_curve hy ..).trans hl), fun _ => ⟨mask, rfl⟩⟩

-- WHAT THE LOOKUP READS

theorem curvePair_of_reads {c : EngineConfig} {i j : Nat} {a b : Magnitude} (ha : c.curve[i]? = some a)
    (hb : c.curve[j]? = some b) : curvePair c i j = some (a, b) := by
  simp only [curvePair, curveRead, ha, hb]

/-- Row `q` of the lookup (41_curve_lut.md R125): one index is the distance to the quadrant's start, the other that to
its end, and the parity of the quadrant says which is whose. -/
theorem curveLookup_row {c : EngineConfig} {s : Nat} (q : Nat) (hs : s < 4 * c.m.val) (hlo : q * c.m.val ≤ s)
    (hhi : s < (q + 1) * c.m.val) :
    curveLookup c s = curvePair c (if q % 2 = 0 then (q + 1) * c.m.val - s else s - q * c.m.val)
      (if q % 2 = 0 then s - q * c.m.val else (q + 1) * c.m.val - s) := by
  obtain ⟨hquadrant, hoffset⟩ := div_mod_of_row s c.m.val q hlo hhi
  have hend : c.m.val - (s - q * c.m.val) = (q + 1) * c.m.val - s := by
    rw [Nat.succ_mul]
    omega
  rw [curveLookup_eq_curvePair hs, hquadrant, hoffset, hend]

/-- Row `q` at the offset `r` into the quadrant. -/
theorem curveLookup_at_offset {c : EngineConfig} {q r : Nat} (hq : q < 4) (hr : r < c.m.val) :
    curveLookup c (q * c.m.val + r) =
      curvePair c (if q % 2 = 0 then c.m.val - r else r) (if q % 2 = 0 then r else c.m.val - r) := by
  have hcycle : (q + 1) * c.m.val ≤ 4 * c.m.val := Nat.mul_le_mul_right _ hq
  have hend : (q + 1) * c.m.val = q * c.m.val + c.m.val := Nat.succ_mul ..
  rw [curveLookup_row q (by omega) (by omega) (by omega), hend, Nat.add_sub_add_left, Nat.add_sub_cancel_left]

/-- Settles O22: the offset form reads two entries of a legal table, and each row is the offset form of its quadrant. -/
theorem curveLookupRows : Obligations.CurveLookupRows := by
  intro c s hc hs
  obtain ⟨a, b, hlookup, ha, hb⟩ := curveLookup_reads hc hs
  have hrow (q : Nat) (hlo : q * c.m.val ≤ s) (hhi : s < (q + 1) * c.m.val) :=
    curvePair_reads ((curveLookup_row q hs hlo hhi).symm.trans hlookup)
  refine ⟨a, b, hlookup, fun h1 => ?_, fun h1 h2 => ?_, fun h2 h3 => ?_, fun h3 => ?_, ?_, fun heven => ?_,
    fun hodd => ?_⟩
  · simpa using hrow 0 (by omega) (by omega)
  · simpa using hrow 1 (by omega) (by omega)
  · simpa using hrow 2 (by omega) (by omega)
  · simpa using hrow 3 (by omega) (by omega)
  · rw [← c.m.val_eq_two_pow]
  · simp only [if_pos heven] at ha hb
    exact ⟨ha, hb⟩
  · simp only [hodd, one_ne_zero, if_false] at ha hb
    exact ⟨ha, hb⟩

-- QUADRANT BOUNDARIES AND MIDDLES

/-- At a quadrant boundary the lookup reads the two ends of the table (41_curve_lut.md R128). -/
theorem curveLookup_boundary {c : EngineConfig} (hc : c.legal = true) {q : Nat} (hq : q < 4) :
    curveLookup c (q * c.m.val) = some (if q % 2 = 0 then (255#8, 0#8) else (0#8, 255#8)) := by
  obtain ⟨hfirst, hlast⟩ := curve_ends hc
  have hpos : 0 < c.m.val := by cases c.m <;> decide
  have hat := curveLookup_at_offset (c := c) (r := 0) hq hpos
  rw [Nat.add_zero, Nat.sub_zero] at hat
  rw [hat]
  split
  · exact curvePair_of_reads hlast hfirst
  · exact curvePair_of_reads hfirst hlast

/-- Settles O23: the four boundaries, whose quadrants alternate in parity. -/
theorem boundaryMagnitudes : Obligations.BoundaryMagnitudes := by
  intro c hc
  refine ⟨?_, ?_, curveLookup_boundary hc (q := 2) (by decide), curveLookup_boundary hc (q := 3) (by decide)⟩
  · simpa using curveLookup_boundary hc (q := 0) (by decide)
  · simpa using curveLookup_boundary hc (q := 1) (by decide)

/-- Half a quadrant past a boundary both indices are `M/2`, as `M` is even (41_curve_lut.md R129). -/
theorem curveLookup_middle {c : EngineConfig} {v : Magnitude} (hv : c.curve[c.m.val / 2]? = some v) {q : Nat}
    (hq : q < 4) : curveLookup c (q * c.m.val + c.m.val / 2) = some (v, v) := by
  have hhalf : c.m.val / 2 < c.m.val ∧ c.m.val - c.m.val / 2 = c.m.val / 2 := by cases c.m <;> decide
  obtain ⟨hlt, hsub⟩ := hhalf
  rw [curveLookup_at_offset hq hlt, hsub, ite_self, curvePair_of_reads hv hv]

/-- Across quadrant 0 the first index falls and the second rises, in a table that does not decrease (41_curve_lut.md
R129). -/
theorem curveLookup_slopes {c : EngineConfig} {s : Nat} {a b a' b' : Magnitude} (hc : c.legal = true)
    (hs : s + 1 < c.m.val) (h : curveLookup c s = some (a, b)) (h' : curveLookup c (s + 1) = some (a', b')) :
    a'.toNat ≤ a.toNat ∧ b.toNat ≤ b'.toNat := by
  have hrow {r : Nat} (hr : r < c.m.val) : curveLookup c r = curvePair c (c.m.val - r) r := by
    simpa using curveLookup_at_offset (c := c) (q := 0) (by decide) hr
  rw [hrow (by omega)] at h h'
  obtain ⟨ha, hb⟩ := curvePair_reads h
  obtain ⟨ha', hb'⟩ := curvePair_reads h'
  rw [show c.m.val - s = c.m.val - (s + 1) + 1 by omega] at ha
  exact ⟨curve_nondecreasing hc (by omega) ha' ha, curve_nondecreasing hc (by omega) hb hb'⟩

/-- Settles O24: the middle entry exists in a legal table and is read twice, and the table does not decrease. -/
theorem midQuadrantAndSlopes : Obligations.MidQuadrantAndSlopes := by
  refine ⟨fun c hc => ?_, fun c s a b a' b' hc hs h h' => curveLookup_slopes hc hs h h', rfl, rfl⟩
  obtain ⟨v, hv⟩ := curveRead_isSome hc (Nat.div_le_self c.m.val 2)
  exact ⟨v, hv, fun q hq => curveLookup_middle hv hq⟩

-- WHICH TABLES CONSTRUCTION TAKES

/-- In a table of `M + 1` entries the check of R121(c) compares entries, never the default of a read outside. -/
theorem curveMonotone_iff {m : Nat} {curve : List Nat} (hlen : curve.length = m + 1) :
    curveMonotone m curve = true ↔
      ∀ i u v : Nat, i < m → curve[i]? = some u → curve[i + 1]? = some v → u ≤ v := by
  simp only [curveMonotone, List.all_eq_true, List.mem_range, decide_eq_true_eq, List.getD_eq_getElem?_getD]
  constructor
  · intro h i u v hi hu hv
    simpa [hu, hv] using h i hi
  · intro h i hi
    have hu : curve[i]? = some curve[i] := List.getElem?_eq_getElem (by omega)
    have hv : curve[i + 1]? = some curve[i + 1] := List.getElem?_eq_getElem (by omega)
    simpa [hu, hv] using h i _ _ hi hu hv

/-- The model's check of a table, in the words of 41_curve_lut.md R121 (a) to (e). -/
theorem curveOk_iff {m : Nat} {curve : List Nat} : curveOk m curve = true ↔
    curve.length = m + 1 ∧ (∀ v ∈ curve, v ≤ 255) ∧
      (∀ i u v : Nat, i < m → curve[i]? = some u → curve[i + 1]? = some v → u ≤ v) ∧
      curve[0]? = some 0 ∧ curve[m]? = some 255 ∧
      (m = 16 → curve[1]? = some 25 ∧ curve[15]? = some 253) := by
  have hlength : curveLengthOk m curve = true ↔ curve.length = m + 1 := beq_iff_eq
  have hentries : curveEntriesOk curve = true ↔ ∀ v ∈ curve, v ≤ 255 := by simp [curveEntriesOk]
  have hends : curveEndsOk m curve = true ↔ curve[0]? = some 0 ∧ curve[m]? = some 255 := by simp [curveEndsOk]
  have hscenario : curveScenarioOk m curve = true ↔ (m = 16 → curve[1]? = some 25 ∧ curve[15]? = some 253) := by
    simp [curveScenarioOk, imp_iff_not_or]
  simp only [curveOk, Bool.and_eq_true, hlength, hentries, hends, hscenario, and_assoc]
  exact and_congr_right fun hlen => by rw [curveMonotone_iff hlen]

/-- With a legal `M` and a good channel map the table alone decides: an engine, or the named refusal. -/
theorem construct_of_channelsOk {a : ConstructionArgs} (hm : a.m = 8 ∨ a.m = 16) (hch : channelsOk a = true)
    (sink : Memory) :
    (curveOk a.m a.curve = true ∧ ∃ t, construct a sink = .next t) ∨
      (curveOk a.m a.curve = false ∧ construct a sink = .refused .curveTablePremise) := by
  obtain ⟨m, -, h⟩ := construct_of_phaseWidth hm sink
  rw [if_pos hch] at h
  cases hc : curveOk a.m a.curve with
  | true => exact .inl ⟨rfl, _, by rw [h, if_pos hc]⟩
  | false => exact .inr ⟨rfl, by rw [h, if_neg (by simp [hc])]⟩

/-- Settles O53: of the two answers left by a legal `M` and a good channel map, the check of 41_curve_lut.md R121 picks
one. -/
theorem tableConstraintsDecideConstruction : Obligations.TableConstraintsDecideConstruction := by
  intro a sink hm hch
  have hR121 := curveOk_iff (m := a.m) (curve := a.curve)
  obtain ⟨hok, hnext⟩ | ⟨hbad, hrefused⟩ := construct_of_channelsOk hm hch sink
  · exact ⟨iff_of_true hnext (hR121.mp hok), fun hnone => absurd hnext hnone⟩
  · have hnone : ¬ ∃ t, construct a sink = .next t := by simp [hrefused]
    have htable := mt hR121.mpr (Bool.eq_false_iff.mp hbad)
    exact ⟨iff_of_false hnone htable, fun _ => hrefused⟩

end Sys2Proof.Machine
end

section
/-! The laws of the two mask tables (42_latch_encoder.md R144). -/

namespace Sys2Proof.Machine

open Sys2Proof

/-- Each quadrant takes the mask of the odd octant in its middle (42_latch_encoder.md R144(a)). -/
theorem quadTable_eq_octTable : ∀ q : Fin 4, quadTable[q.val]? = octTable[2 * q.val + 1]? := by decide

theorem octTable_getElem?_isSome (o : Fin 8) : ∃ k, octTable[o.val]? = some k :=
  ⟨_, List.getElem?_eq_getElem o.isLt⟩

theorem quadTable_getElem?_isSome (q : Fin 4) : ∃ k, quadTable[q.val]? = some k :=
  ⟨_, List.getElem?_eq_getElem q.isLt⟩

theorem quadTable_subset_octTable : quadTable ⊆ octTable := by
  intro k hk
  obtain ⟨q, hq, hread⟩ := List.mem_iff_getElem.mp hk
  have hentry : quadTable[q]? = some k := List.getElem?_eq_some_iff.mpr ⟨hq, hread⟩
  rw [quadTable_eq_octTable ⟨q, hq⟩] at hentry
  exact List.mem_of_getElem? hentry

theorem cpop_of_singleCoil : ∀ k ∈ [0x1#4, 0x2#4, 0x4#4, 0x8#4], k.cpop.toNat = 1 := by decide

theorem cpop_of_dualCoil : ∀ k ∈ [0x3#4, 0x6#4, 0xC#4, 0x9#4], k.cpop.toNat = 2 := by decide

/-- An even octant sets one bit of the mask, an odd octant two (42_latch_encoder.md R144(b)). -/
theorem octTable_cpop {o : Fin 8} {k : Mask} (hk : octTable[o.val]? = some k) :
    k.cpop.toNat = if o.val % 2 = 0 then 1 else 2 := by
  split
  case isTrue heven => exact cpop_of_singleCoil k (octTable_even o heven k hk)
  case isFalse hodd => exact cpop_of_dualCoil k (octTable_odd o (by omega) k hk)

theorem quadTable_cpop {q : Fin 4} {k : Mask} (hk : quadTable[q.val]? = some k) : k.cpop.toNat = 2 := by
  rw [quadTable_eq_octTable q] at hk
  have hodd : ¬ (2 * q.val + 1) % 2 = 0 := by omega
  exact (octTable_cpop (o := ⟨2 * q.val + 1, by omega⟩) hk).trans (if_neg hodd)

/-- From an octant to the next one, cyclically, a single pin switches (42_latch_encoder.md R144(c)). -/
theorem octTable_xor_next_cpop : ∀ o : Fin 8, ∀ k ∈ octTable[o.val]?, ∀ l ∈ octTable[(o.val + 1) % 8]?,
    (k ^^^ l).cpop.toNat = 1 := by
  decide

/-- No octant gives all four pins one level or sets both bits of a pair (42_latch_encoder.md R144(d)). -/
theorem octTable_excludes : ∀ k ∈ octTable,
    k ≠ 0x0#4 ∧ k ≠ 0xF#4 ∧ ¬(k.getLsbD 0 = true ∧ k.getLsbD 2 = true) ∧
      ¬(k.getLsbD 1 = true ∧ k.getLsbD 3 = true) := by
  decide

/-- Settles O26: the laws of the octants are read off their eight masks, and every quadrant mask is an octant's. -/
theorem maskTableLaws : Obligations.MaskTableLaws := by
  refine ⟨fun q => ⟨quadTable_eq_octTable q, ?_⟩, fun o => ?_, fun q => ?_, fun o => ?_, fun k hk => ?_⟩
  · exact Option.isSome_iff_exists.mpr (quadTable_getElem?_isSome q)
  · obtain ⟨k, hk⟩ := octTable_getElem?_isSome o
    exact ⟨k, hk, octTable_cpop hk⟩
  · obtain ⟨k, hk⟩ := quadTable_getElem?_isSome q
    exact ⟨k, hk, quadTable_cpop hk⟩
  · obtain ⟨k, hk⟩ := octTable_getElem?_isSome o
    obtain ⟨l, hl⟩ := octTable_getElem?_isSome ⟨(o.val + 1) % 8, Nat.mod_lt _ (by decide)⟩
    exact ⟨k, l, hk, hl, octTable_xor_next_cpop o k hk l hl⟩
  · exact octTable_excludes k (hk.elim id fun hquad => quadTable_subset_octTable hquad)

end Sys2Proof.Machine
end

section
/-! The sink words (43_actuation_sink.md R161): what each field of a word is, and the decoder over the words of sink
commands. -/

namespace Sys2Proof.Machine

open Sys2Proof

-- THE FIELDS OF A WORD

theorem getLsbD_kind (kind : BitVec 1) (chan : Channel) (value : BitVec 12) :
    (kind ++ chan ++ value).getLsbD 16 = kind.getLsbD 0 :=
  (BitVec.getLsbD_append ..).trans (BitVec.getLsbD_append ..)

theorem extractLsb'_value (kind : BitVec 1) (chan : Channel) (value : BitVec 12) :
    (kind ++ chan ++ value).extractLsb' 0 12 = value :=
  BitVec.extractLsb'_append_eq_right

theorem getLsbD_pin (kind : BitVec 1) (chan : Channel) (b : Bool) :
    (kind ++ chan ++ (0#11 ++ BitVec.ofBool b)).getLsbD 0 = b := by
  rw [BitVec.getLsbD_append, BitVec.getLsbD_append]
  cases b <;> rfl

theorem extractLsb'_abovePin (kind : BitVec 1) (chan : Channel) (b : Bool) :
    (kind ++ chan ++ (0#11 ++ BitVec.ofBool b)).extractLsb' 1 11 = 0#11 := by
  rw [BitVec.extractLsb'_append_eq_of_add_le (by decide)]
  exact BitVec.extractLsb'_append_eq_left

-- THE DECODER

theorem decodeSinkWord_analogDuty (c : Channel) (d : Duty) :
    decodeSinkWord (SinkCmd.analogDuty c d).word = some (.analogDuty c d) := by
  rw [decodeSinkWord, SinkCmd.word, getLsbD_kind, extractLsb'_chan, extractLsb'_value]
  rfl

theorem decodeSinkWord_digitalPin (c : Channel) (b : Bool) :
    decodeSinkWord (SinkCmd.digitalPin c b).word = some (.digitalPin c b) := by
  rw [decodeSinkWord, SinkCmd.word, getLsbD_kind, extractLsb'_chan, getLsbD_pin, extractLsb'_abovePin]
  rfl

/-- Settles O31: each field of a word is the one it was laid out from, and a word shown is that of one of the six sink
commands. -/
theorem sinkWordLayout : Obligations.SinkWordLayout := by
  refine ⟨fun c d => ?_, fun c b => ?_, fun c => ?_, fun s w hw => ?_⟩
  · exact ⟨getLsbD_kind .., extractLsb'_chan .., extractLsb'_value ..⟩
  · exact ⟨getLsbD_kind .., extractLsb'_chan .., getLsbD_pin .., extractLsb'_abovePin ..⟩
  · cases c with
    | analogDuty c d => exact decodeSinkWord_analogDuty c d
    | digitalPin c b => exact decodeSinkWord_digitalPin c b
  · obtain ⟨l, k, hword⟩ := snkWord_some hw
    exact ⟨_, hword⟩

-- THE EFFECT OF THE TWO OPERATIONS

/-- The duties a command latches are scaled magnitudes (40_step_fsm.md R80, 41_curve_lut.md R126). -/
theorem drive_duties {c : EngineConfig} {y : Style} {s : Nat} {l : Latches} (h : drive c y s = some l) :
    ∃ a b, l.a = scaleDuty a ∧ l.b = scaleDuty b := by
  unfold drive at h
  split at h
  · cases h
    exact ⟨_, _, rfl, rfl⟩
  · cases h

theorem scaleDuty_le (a : Magnitude) : (scaleDuty a).toNat ≤ 4080 := by
  have := a.isLt
  rw [scaleDuty_toNat]
  omega

/-- Settles O32: each operation is one write of its channel, and the latches of the invariant are scaled magnitudes. -/
theorem sinkEffects : Obligations.SinkEffects := by
  refine ⟨fun m c d hm => ?_, fun m c b hm => ?_, fun s l hinv hl => ?_⟩
  · exact ⟨Memory.read_write_same hm, fun _ => Memory.read_write_other⟩
  · exact ⟨Memory.read_write_same hm, fun _ => Memory.read_write_other⟩
  · obtain ⟨y, hdrive⟩ := hinv.latchesMatch l hl
    obtain ⟨a, b, ha, hb⟩ := drive_duties hdrive
    rw [ha, hb]
    exact ⟨scaleDuty_le a, scaleDuty_le b⟩

end Sys2Proof.Machine
end

section
/-! The progress of the emission (43_actuation_sink.md R164, R165): the word shown, one answer of the sink, and a sink
that gives none. -/

namespace Sys2Proof.Machine

open Sys2Proof

theorem snkWord_idle {s : State} (hb : s.busy = false) : snkWord s = none := by
  simp [snkWord, hb]

/-- A busy engine shows command `emit_idx` (43_actuation_sink.md R165). -/
theorem snkWord_busy {s : State} {k : Fin 6} {l : Latches} (hb : s.busy = true) (hk : s.emitIdx = k.castSucc)
    (hl : s.lat = some l) : snkWord s = some (sinkCommand s.cfg.channels l k).word := by
  simp only [snkWord, if_pos hb, outstanding_of hk hl]

/-- Settles O34: `done` ends command `k`, the sixth with the response, and leaves the next one outstanding; `err` is the
fault entry. -/
theorem emissionProgress : Obligations.EmissionProgress := by
  intro s k l rest hb hk hl
  refine ⟨fun ha => ⟨_, step_done hb hk hl ha, by simp, fun hk5 => ?_, fun j hj => ?_⟩, fun ha => ?_⟩
  · rw [sinkDone_last _ _ hk5]
    exact ⟨rfl, snkWord_idle rfl, rfl⟩
  · rw [sinkDone_inner _ _ (by omega)]
    exact ⟨hb, rfl, snkWord_busy hb (Fin.ext hj.symm) hl⟩
  · exact ⟨_, step_err hb hk hl ha, rfl, rfl, rfl, rfl, rfl⟩

/-- Settles O35: the step is `sinkDone`, whose only write of the sink is the effect of the command. -/
theorem sinkCommandFrame : Obligations.SinkCommandFrame := by
  intro s t k l rest hb hk hl hm ha h
  obtain rfl := Host.Outcome.next.inj ((step_done hb hk hl ha).symm.trans h)
  simp only [sinkDone_cfg, sinkDone_pos, sinkDone_lat, sinkDone_fault, sinkDone_hostIn, sinkDone_sinkIn,
    sinkDone_freeDraws, sinkDone_sinkTrace, sinkDone_sink, true_and]
  exact ⟨effect_read _ hm, fun _ => effect_read_other _ _⟩

/-- A busy engine whose sink has no answer left stays as it is (43_actuation_sink.md R164). -/
theorem step_silent {s : State} (hb : s.busy = true) (ha : s.sinkIn = []) : step s = .next s := by
  rw [step_busy hb, sinkTurn, ha]

/-- Settles O41: the waits pass one by one, and after the last of them the sink is silent. -/
theorem silentSinkWaitsForever : Obligations.SilentSinkWaitsForever := by
  intro s m n hb ha
  obtain hle | hle := Nat.le_total n m
  · refine runSteps_waits n _ hb ?_
    rw [ha, List.replicate_append_replicate, Nat.add_sub_cancel' hle]
  · obtain ⟨d, rfl⟩ := Nat.exists_eq_add_of_le hle
    have hwaits := runSteps_waits m [] hb (by rw [ha, List.append_nil])
    rw [runSteps_add hwaits, Nat.sub_eq_zero_of_le hle]
    exact runSteps_still (step_silent (s := { s with sinkIn := [] }) hb rfl) d

end Sys2Proof.Machine
end

section
/-! A whole command (43_actuation_sink.md R162, R166): the accept, the sink commands one after another under every finite
delay, and the completion. -/

namespace Sys2Proof.Machine

open Sys2Proof

-- SCHEDULES OF A SINK THAT ANSWERS

theorem doneAfter_append (ds es : List Nat) : doneAfter (ds ++ es) = doneAfter ds ++ doneAfter es := by
  induction ds with
  | nil => rfl
  | cons d ds ih => simp only [List.cons_append, doneAfter, ih, List.append_assoc]

theorem stepsOf_append (ds es : List Nat) : stepsOf (ds ++ es) = stepsOf ds + stepsOf es := by
  induction ds with
  | nil => exact (Nat.zero_add _).symm
  | cons d ds ih => simp only [List.cons_append, stepsOf, ih, Nat.add_assoc]

-- THE EMISSION

/-- The six sink words of a step, each ended with `done`, in order (43_actuation_sink.md R162). -/
def doneWords (ch : ChannelMap) (l : Latches) : List (SinkWord × SinkEnding) :=
  List.ofFn fun k => ((sinkCommand ch l k).word, .done)

theorem doneWords_drop (ch : ChannelMap) (l : Latches) (k : Fin 6) :
    (doneWords ch l).drop k.val = ((sinkCommand ch l k).word, .done) :: (doneWords ch l).drop (k.val + 1) := by
  have hk : k.val < (doneWords ch l).length := by simp [doneWords]
  rw [List.drop_eq_getElem_cons hk]
  simp only [doneWords, List.getElem_ofFn, Fin.eta]

/-- Up to the last command, and the last command. -/
theorem doneWords_drop_last (ch : ChannelMap) (l : Latches) {j n : Nat} (h : j + n = 5) :
    (doneWords ch l).drop j = ((doneWords ch l).drop j).take n ++ [((sinkCommand ch l 5).word, .done)] := by
  have hlast : (doneWords ch l).drop (j + n) = [((sinkCommand ch l 5).word, .done)] := by
    rw [h]
    exact doneWords_drop ch l 5
  rw [← hlast, ← List.drop_drop, List.take_append_drop]

section Emission
variable {s : State} {l : Latches} {k : Fin 6}

/-- The outstanding sink command ends with `done` after any number of steps without an answer (70_reset_and_hazards.md
R210). -/
theorem runSteps_done (d : Nat) (more : List SinkAnswer) (hb : s.busy = true) (hk : s.emitIdx = k.castSucc)
    (hl : s.lat = some l) (ha : s.sinkIn = List.replicate d .wait ++ .done :: more) :
    runSteps (d + 1) s = .next (sinkDone k (sinkCommand s.cfg.channels l k) { s with sinkIn := more }) := by
  rw [runSteps_add (runSteps_waits d _ hb ha),
    runSteps_succ_next (step_done (s := { s with sinkIn := .done :: more }) hb hk hl rfl)]
  rfl

/-- While fewer than six sink commands have ended, the engine stays busy and only the emission has changed
(43_actuation_sink.md R165). -/
theorem runSteps_doneAfter_inner (ds : List Nat) (more : List SinkAnswer) (hb : s.busy = true) (hl : s.lat = some l)
    (hlt : s.emitIdx.val + ds.length < 6) (ha : s.sinkIn = doneAfter ds ++ more) :
    ∃ (m : Memory) (j : Fin 7), j.val = s.emitIdx.val + ds.length ∧
      runSteps (stepsOf ds) s = .next { s with
        sink := m, emitIdx := j, sinkIn := more,
        sinkTrace := s.sinkTrace ++ ((doneWords s.cfg.channels l).drop s.emitIdx.val).take ds.length } := by
  induction ds generalizing s with
  | nil =>
    obtain rfl : s.sinkIn = more := ha
    exact ⟨s.sink, s.emitIdx, rfl, by simp [stepsOf]⟩
  | cons d ds ih =>
    rw [List.length_cons] at hlt
    obtain ⟨k, hk⟩ : ∃ k : Fin 6, s.emitIdx = k.castSucc := ⟨⟨s.emitIdx.val, by omega⟩, rfl⟩
    have hkval : s.emitIdx.val = k.val := congrArg Fin.val hk
    have hfirst := runSteps_done d (doneAfter ds ++ more) hb hk hl (by rw [ha, doneAfter, List.append_assoc]; rfl)
    rw [sinkDone_inner _ _ (by omega)] at hfirst
    obtain ⟨m, j, hj, hrest⟩ := ih
      (s := advanceEmission k (sinkCommand s.cfg.channels l k) { s with sinkIn := doneAfter ds ++ more })
      hb hl (by simp only [advanceEmission_emitIdx, Fin.val_succ]; omega) rfl
    refine ⟨m, j, by rw [hj, advanceEmission_emitIdx, Fin.val_succ, List.length_cons]; omega, ?_⟩
    rw [stepsOf, runSteps_add hfirst, hrest, hkval, doneWords_drop, List.length_cons, List.take_succ_cons,
      List.append_cons]
    rfl

/-- When the sink has answered `done` to all that was left, the step is complete: busy is cleared and OK sent with the
position (40_step_fsm.md R86). -/
theorem runSteps_doneAfter (ds : List Nat) (more : List SinkAnswer) (hb : s.busy = true) (hl : s.lat = some l)
    (hlt : s.emitIdx.val < 6) (hlen : s.emitIdx.val + ds.length = 6) (ha : s.sinkIn = doneAfter ds ++ more) :
    ∃ m : Memory, runSteps (stepsOf ds) s = .next { s with
      busy := false, sink := m, emitIdx := 6, sinkIn := more, responses := s.responses ++ [respOk s.pos],
      sinkTrace := s.sinkTrace ++ (doneWords s.cfg.channels l).drop s.emitIdx.val } := by
  obtain rfl | ⟨ds, d, rfl⟩ := List.eq_nil_or_concat' ds
  · simp only [List.length_nil] at hlen; omega
  rw [List.length_append, List.length_singleton] at hlen
  rw [doneAfter_append, List.append_assoc] at ha
  obtain ⟨m, j, hj, hinner⟩ := runSteps_doneAfter_inner ds _ hb hl (by omega) ha
  refine ⟨(sinkCommand s.cfg.channels l 5).effect m, ?_⟩
  rw [doneWords_drop_last _ _ (show s.emitIdx.val + ds.length = 5 by omega), ← List.append_assoc, stepsOf_append,
    runSteps_add hinner]
  refine (runSteps_done (k := 5) (l := l) d more ?busy ?index ?latched ?answers).trans ?completed
  case busy => exact hb
  case index => exact Fin.ext (by rw [hj, Fin.val_castSucc]; omega)
  case latched => exact hl
  case answers => simp [doneAfter]
  case completed => rw [sinkDone_last _ _ rfl]; rfl

end Emission

-- THE COMMAND

/-- A ready engine with a legal configuration accepts the command presented (40_step_fsm.md R80). -/
theorem step_accepts {s : State} {i : Instr} {rest : List HostEvent} (hc : s.cfg.legal = true)
    (hr : cmdReady s = true) (hh : s.hostIn = .present (encodeByte i) :: rest) :
    ∃ l, drive s.cfg i.style (newPosition s.cfg.m i.direction i.style s.pos.toNat) = some l ∧
      step s = .next (latchStep (newPosition s.cfg.m i.direction i.style s.pos.toNat) l { s with hostIn := rest }) := by
  obtain ⟨hb, hf⟩ := (cmdReady_iff s).1 hr
  rw [stepRunsDecodedCommand s _ i rest hb hf hh (decode_encodeByte i), exec_eq_accept]
  exact accept_ready (s := { s with hostIn := rest }) i.direction i.style hr hc

/-- With the invariant an engine that is done, has no fault and whose host presents nothing more is a successful end
(70_reset_and_hazards.md R207). -/
theorem successfulEnd_of_engineInv {s : State} (h : EngineInv s) (hb : s.busy = false) (hf : s.fault = .none)
    (hh : s.hostIn = []) : SuccessfulEnd s :=
  ⟨hb, hf, by simp [hh], (responsesMatch_of_fault_none hf).1 h.responsesMatch⟩

/-- Settles O44: the accept, then the six completions. What stands on the six channels at the
end is what the invariant says of delivered commands, and no run writes another channel. -/
theorem commandRunsToCompletion : Obligations.CommandRunsToCompletion := by
  intro i s rest ds more hinv hr hh hlen ha
  obtain ⟨-, hf⟩ := (cmdReady_iff s).1 hr
  obtain ⟨l, hdrive, haccept⟩ := step_accepts hinv.cfgLegal hr hh
  obtain ⟨m, hrun⟩ := runSteps_doneAfter
    (s := latchStep (newPosition s.cfg.m i.direction i.style s.pos.toNat) l { s with hostIn := rest })
    ds more rfl rfl (Nat.zero_lt_succ _) ((Nat.zero_add _).trans hlen) ha
  rw [← runSteps_succ_next haccept, Nat.add_comm] at hrun
  have hend := runSteps_keeps_engineInv hinv hrun
  have hdelivered : Delivered _ l 6 := hend.delivered l rfl
  have hpos := ofNat_newPosition_toNat s.cfg.m i.direction i.style s.pos.toNat
  refine ⟨_, l, hrun, hpos, (congrArg _ hpos).trans hdrive, rfl, fun hy => ?_, rfl, rfl, hf, rfl, rfl, rfl, rfl, rfl,
    rfl, hdelivered 0 (by decide), hdelivered 1 (by decide), hdelivered 2 (by decide), hdelivered 3 (by decide),
    hdelivered 4 (by decide), hdelivered 5 (by decide),
    fun c => otherChannelsAreNeverWritten.2 _ s _ c hrun, successfulEnd_of_engineInv hend rfl hf⟩
  obtain ⟨mask, rfl⟩ := full_duties_of_drive hy hdrive
  exact ⟨rfl, rfl⟩

end Sys2Proof.Machine
end

section
/-! Construction and its one error (60_exceptions.md R180). -/

namespace Sys2Proof.Machine

open Sys2Proof

theorem construct_of_illegal {a : ConstructionArgs} (h8 : a.m ≠ 8) (h16 : a.m ≠ 16) (sink : Memory) :
    construct a sink = .fault (.configurationError a.m) := by
  obtain ⟨h, -⟩ | ⟨h, -⟩ | ⟨-, -, hnone⟩ := phaseWidth_ofNat_cases a.m
  · exact absurd h h8
  · exact absurd h h16
  · simp only [construct, hnone]

/-- With a legal `M` construction gives an engine or refuses a premise (60_exceptions.md R181). -/
theorem construct_ne_fault {a : ConstructionArgs} (hm : a.m = 8 ∨ a.m = 16) (sink : Memory) (f : Fault) :
    construct a sink ≠ .fault f := by
  obtain ⟨m, -, h⟩ := construct_of_phaseWidth hm sink
  rw [h]
  split
  · split <;> simp
  · simp

/-- Settles O52: an illegal `M` is the error, whatever the other arguments are, and a legal one raises no fault. -/
theorem configurationErrorExactly : Obligations.ConfigurationErrorExactly := by
  intro a sink
  by_cases hm : a.m = 8 ∨ a.m = 16
  · have hfault := construct_ne_fault hm sink
    refine ⟨iff_of_false (hfault _) (by omega), fun f h => absurd h (hfault f), by omega, fun _ hc hch => ?_⟩
    obtain ⟨-, hnext⟩ | ⟨hbad, -⟩ := construct_of_curveOk hm hc sink
    · exact hnext
    · simp [hch] at hbad
  · obtain ⟨h8, h16⟩ := not_or.1 hm
    have herr := construct_of_illegal h8 h16 sink
    refine ⟨iff_of_true herr ⟨h8, h16⟩, fun f h => ?_, fun _ _ => by rw [herr]; rfl, fun h => absurd h hm⟩
    exact (Host.Outcome.fault.inj (herr.symm.trans h)).symm

end Sys2Proof.Machine
end

section
/-! What can stop the engine (60_exceptions.md R182): no command, and from a state with the invariant nothing but a wide
word (30_encoding.md R64). -/

namespace Sys2Proof.Machine

open Sys2Proof

/-- A legal configuration answers every command, held or accepted. -/
theorem exec_next {s : State} (hc : s.cfg.legal = true) (i : Instr) : ∃ t, exec i s = .next t := by
  rw [exec_eq_accept]
  cases hr : cmdReady s with
  | false => exact ⟨s, accept_held hr⟩
  | true =>
    obtain ⟨l, -, haccept⟩ := accept_ready i.direction i.style hr hc
    exact ⟨_, haccept⟩

/-- Settles O17: the decoder is total, and a legal configuration answers every command. -/
theorem noCommandStopsByItself : Obligations.NoCommandStopsByItself :=
  ⟨fun cmd => ⟨decodeWord cmd, decode_setWidth cmd⟩, fun i _ h => exec_next h.cfgLegal i⟩

/-- The transition of a busy engine whose sink gives no answer in this step. -/
theorem step_waited {s : State} {rest : List SinkAnswer} (hb : s.busy = true) (ha : s.sinkIn = .wait :: rest) :
    step s = .next { s with sinkIn := rest } := by
  rw [step_busy hb, sinkTurn, ha]

/-- A busy engine with the invariant answers a next state, whatever the sink does. -/
theorem step_busy_next {s : State} (h : EngineInv s) (hb : s.busy = true) : ∃ t, step s = .next t := by
  obtain ⟨k, l, hk, hl, -⟩ := outstanding_of_engineInv h hb
  cases ha : s.sinkIn with
  | nil => exact ⟨s, step_silent hb ha⟩
  | cons a rest =>
    cases a with
    | wait => exact ⟨_, step_waited hb ha⟩
    | done => exact ⟨_, step_done hb hk hl ha⟩
    | err => exact ⟨_, step_err hb hk hl ha⟩

/-- A ready engine with a legal configuration answers a next state, unless the host presents a wide word. -/
theorem step_ready_cases {s : State} (hc : s.cfg.legal = true) (hr : cmdReady s = true) :
    (∃ t, step s = .next t) ∨ ∃ b rest, s.hostIn = .present b :: rest ∧ 8 ≤ b.toNat := by
  cases hh : s.hostIn with
  | nil => exact .inl ⟨s, step_idle hr hh⟩
  | cons e rest =>
    cases e with
    | pause => exact .inl ⟨_, step_paused hr hh⟩
    | present b =>
      obtain hnarrow | hwide := Nat.lt_or_ge b.toNat 8
      · rw [step_presented hr hh, decode_narrow hnarrow]
        exact .inl (exec_next (s := dropWord s) hc _)
      · exact .inr ⟨b, rest, rfl, hwide⟩

/-- Settles O49: a busy engine has its outstanding command, a faulted one stays, and a ready one refuses a wide word
alone. -/
theorem onlyWideWordsStopTheMachine : Obligations.OnlyWideWordsStopTheMachine := by
  intro s h
  by_cases hb : s.busy = true
  · exact .inl (step_busy_next h hb)
  rw [Bool.not_eq_true] at hb
  by_cases hf : s.fault = .none
  · have hr := (cmdReady_iff s).2 ⟨hb, hf⟩
    refine (step_ready_cases h.cfgLegal hr).imp_right ?_
    rintro ⟨b, rest, hh, hwide⟩
    exact ⟨b, rest, hh, hwide, hr, wideWordsAreRefused.2.2 s b rest hr hh hwide⟩
  · exact .inl ⟨s, step_faulted hb hf⟩

end Sys2Proof.Machine
end

section
/-! The idle engine (60_exceptions.md R197): the host's pauses pass, and nothing else. -/

namespace Sys2Proof.Machine

open Sys2Proof

theorem runSteps_one (s : State) : runSteps 1 s = step s := by
  rw [runSteps_succ]
  cases step s <;> rfl

/-- Settles O43: after the pauses the engine is as ready as before, for an endless silence or for the next command. -/
theorem idleEngineChangesNothing : Obligations.IdleEngineChangesNothing := by
  refine ⟨fun s n rest hr hh => runSteps_pauses n rest hr hh, fun s n k hr hh => ?_, fun s n i rest hr hh => ?_⟩
  · have hpauses := runSteps_pauses n [] hr (by rw [hh, List.append_nil])
    rw [runSteps_add hpauses]
    exact runSteps_still (step_idle (s := { s with hostIn := [] }) hr rfl) k
  · obtain ⟨hb, hf⟩ := (cmdReady_iff s).1 hr
    rw [runSteps_add (runSteps_pauses n _ hr hh), runSteps_one]
    exact stepRunsDecodedCommand _ _ i rest hb hf rfl (decode_encodeByte i)

end Sys2Proof.Machine
end

section
/-! The sink fault (60_exceptions.md R183, R184): its entry, the engine that stays in it, and a whole command that ends
in it under every finite delay. -/

namespace Sys2Proof.Machine

open Sys2Proof

theorem cmdReady_sinkFault {s : State} {k : Fin 6} (hf : s.fault = .sinkFault k) : cmdReady s = false := by
  simp [cmdReady, hf]

theorem not_successfulEnd_of_sinkFault {s : State} {k : Fin 6} (hf : s.fault = .sinkFault k) : ¬ SuccessfulEnd s := by
  rintro ⟨-, hnone, -⟩
  simp [hf] at hnone

/-- Settles O39: the step is `raiseSinkFault`, which writes the channel of the failed command alone, and keeps what the
invariant says of the commands before it. -/
theorem sinkFaultEntry : Obligations.SinkFaultEntry := by
  intro s k l rest hinv hb hk hl ha
  have hstep := step_err hb hk hl ha
  have hdelivered := (stepKeepsInvariant s _ hinv hstep).delivered l hl
  rw [raiseSinkFault_emitIdx, hk] at hdelivered
  exact ⟨_, hstep, rfl, hdelivered, fun _ => Memory.read_write_other, rfl, snkWord_idle rfl, rfl, rfl, rfl, rfl, rfl,
    cmdReady_sinkFault rfl, rfl, rfl, rfl, rfl⟩

/-- Settles O40: with the invariant a faulted engine is not busy, so it takes no command and awaits no answer. -/
theorem faultedEngineAcceptsNothing : Obligations.FaultedEngineAcceptsNothing := by
  intro s k hinv hf
  have hfault : s.fault ≠ .none := by simp [hf]
  have hb : s.busy = false := Bool.eq_false_iff.2 fun hbusy => hfault (hinv.busyOutstanding hbusy).2.2
  have hr := cmdReady_sinkFault hf
  exact ⟨hr, fun i => (exec_eq_accept i s).trans (accept_held hr), runSteps_still (step_faulted hb hfault),
    not_successfulEnd_of_sinkFault hf⟩

section Emission
variable {s : State} {l : Latches}

/-- The outstanding sink command ends with `err` after any number of steps without an answer (60_exceptions.md R183). -/
theorem runSteps_err {k : Fin 6} (d : Nat) (more : List SinkAnswer) (hb : s.busy = true) (hk : s.emitIdx = k.castSucc)
    (hl : s.lat = some l) (ha : s.sinkIn = List.replicate d .wait ++ .err :: more) :
    runSteps (d + 1) s = .next (raiseSinkFault k (sinkCommand s.cfg.channels l k) { s with sinkIn := more }) := by
  rw [runSteps_add (runSteps_waits d _ hb ha),
    runSteps_succ_next (step_err (s := { s with sinkIn := .err :: more }) hb hk hl rfl)]
  rfl

/-- The sink commands that have ended leave the channels of those still to come as they were. -/
theorem runSteps_doneAfter_read {t : State} {j : Fin 6} (ds : List Nat) (more : List SinkAnswer)
    (hlegal : s.cfg.legal = true) (hb : s.busy = true) (hl : s.lat = some l) (hj : s.emitIdx.val + ds.length ≤ j.val)
    (ha : s.sinkIn = doneAfter ds ++ more) (hrun : runSteps (stepsOf ds) s = .next t) :
    Memory.read t.sink (sinkCommand s.cfg.channels l j).chan.toNat =
      Memory.read s.sink (sinkCommand s.cfg.channels l j).chan.toNat := by
  induction ds generalizing s with
  | nil => cases hrun; rfl
  | cons d ds ih =>
    rw [List.length_cons] at hj
    obtain ⟨k, hk⟩ : ∃ k : Fin 6, s.emitIdx = k.castSucc := ⟨⟨s.emitIdx.val, by omega⟩, rfl⟩
    have hkval : s.emitIdx.val = k.val := congrArg Fin.val hk
    have hjk : j ≠ k := by rintro rfl; omega
    have hfirst := runSteps_done d (doneAfter ds ++ more) hb hk hl (by rw [ha, doneAfter, List.append_assoc]; rfl)
    rw [sinkDone_inner _ _ (by omega)] at hfirst
    rw [stepsOf, runSteps_add hfirst] at hrun
    have hrest := ih (s := advanceEmission k (sinkCommand s.cfg.channels l k) { s with sinkIn := doneAfter ds ++ more })
      hlegal hb hl (by rw [advanceEmission_emitIdx, Fin.val_succ]; omega) rfl hrun
    exact hrest.trans (effect_read_other _ _ (sinkCommand_chan_ne (legal_channels_distinct hlegal) l hjk))

/-- From the start of the emission, `k` sink commands end with `done` and the next one with `err`. -/
theorem runSteps_doneAfter_err {k : Fin 6} (ds : List Nat) (d : Nat) (more : List SinkAnswer)
    (hlegal : s.cfg.legal = true) (hb : s.busy = true) (hl : s.lat = some l) (h0 : s.emitIdx = 0)
    (hlen : ds.length = k.val) (ha : s.sinkIn = doneAfter ds ++ (List.replicate d .wait ++ .err :: more)) :
    ∃ m : Memory,
      (∀ j : Fin 6, k.val ≤ j.val → Memory.read m (sinkCommand s.cfg.channels l j).chan.toNat =
        Memory.read s.sink (sinkCommand s.cfg.channels l j).chan.toNat) ∧
      runSteps (stepsOf ds + (d + 1)) s = .next (raiseSinkFault k (sinkCommand s.cfg.channels l k) { s with
        sink := m, emitIdx := k.castSucc, sinkIn := more,
        sinkTrace := s.sinkTrace ++ (doneWords s.cfg.channels l).take k.val }) := by
  obtain ⟨m, e, he, hrun⟩ := runSteps_doneAfter_inner ds _ hb hl (by rw [h0, hlen]; simp) ha
  rw [h0, hlen, Fin.val_zero, Nat.zero_add] at he
  obtain rfl : e = k.castSucc := Fin.ext he
  rw [h0, hlen, Fin.val_zero, List.drop_zero] at hrun
  refine ⟨m, fun j hj => ?_, ?_⟩
  · exact runSteps_doneAfter_read ds _ hlegal hb hl (by rw [h0, hlen]; simpa using hj) ha hrun
  · rw [runSteps_add hrun]
    exact runSteps_err d more hb rfl hl rfl

end Emission

/-- Settles O45: the accept, `k` completions, and the fault entry. What stands on the channels before `k` is what the
invariant says of delivered commands; the fault entry writes channel `k` alone. -/
theorem commandEndsInSinkFault : Obligations.CommandEndsInSinkFault := by
  intro i s rest k ds d more hinv hr hh hlen ha
  obtain ⟨l, hdrive, haccept⟩ := step_accepts hinv.cfgLegal hr hh
  obtain ⟨m, hlater, hrun⟩ := runSteps_doneAfter_err
    (s := latchStep (newPosition s.cfg.m i.direction i.style s.pos.toNat) l { s with hostIn := rest })
    ds d more hinv.cfgLegal rfl rfl rfl hlen ha
  rw [← runSteps_succ_next haccept, Nat.add_comm, ← Nat.add_assoc, ← Nat.add_assoc] at hrun
  have hend := runSteps_keeps_engineInv hinv hrun
  have hdelivered : Delivered _ l k.val := hend.delivered l rfl
  have hpos := ofNat_newPosition_toNat s.cfg.m i.direction i.style s.pos.toNat
  refine ⟨_, l, hrun, hpos, (congrArg _ hpos).trans hdrive, rfl, rfl, rfl, rfl, rfl, rfl, rfl, ?_, hdelivered,
    fun j hj => ?_, fun c => otherChannelsAreNeverWritten.2 _ s _ c hrun, rfl, not_successfulEnd_of_sinkFault rfl⟩
  · simp [doneWords, Nat.add_assoc]
  · have hjk : j ≠ k := by rintro rfl; exact lt_irrefl _ hj
    have hne := sinkCommand_chan_ne (legal_channels_distinct hinv.cfgLegal) l hjk
    exact (Memory.read_write_other hne).trans (hlater j hj.le)

end Sys2Proof.Machine
end

section
/-! The engine that construction and launch give (70_reset_and_hazards.md R200, R204): its configuration, its invariant,
and the premises under which there is one. -/

namespace Sys2Proof.Machine

open Sys2Proof

-- THE ENGINE CONSTRUCTED

theorem cmdReady_constructed (cfg : EngineConfig) (sink : Memory) : cmdReady (State.constructed cfg sink) = true := rfl

/-- The inversion of a construction that gives an engine: the arguments meet R121 and R9, and `M` is legal. -/
theorem construct_next_cases {a : ConstructionArgs} {sink : Memory} {t : State} (h : construct a sink = .next t) :
    curveOk a.m a.curve = true ∧ channelsOk a = true ∧
      ∃ m : PhaseWidth, m.val = a.m ∧ t = State.constructed (a.config m) sink := by
  have hm : a.m = 8 ∨ a.m = 16 := by
    by_contra hillegal
    obtain ⟨h8, h16⟩ := not_or.1 hillegal
    simp [construct_of_illegal h8 h16] at h
  obtain ⟨m, hval, hconstruct⟩ := construct_of_phaseWidth hm sink
  rw [hconstruct] at h
  split at h
  · split at h
    · exact ⟨‹_›, ‹_›, m, hval, (Host.Outcome.next.inj h).symm⟩
    · cases h
  · cases h

/-- The configuration of arguments that meet R121 and R9 meets them (60_exceptions.md R181). -/
theorem config_legal {a : ConstructionArgs} {m : PhaseWidth} (hm : m.val = a.m) (hc : curveOk a.m a.curve = true)
    (hch : channelsOk a = true) : (a.config m).legal = true := by
  have hwidth : (a.config m).m.val = a.m := hm
  rw [EngineConfig.legal, config_args hm hc hch, hwidth, hc, hch]
  rfl

theorem engineInv_constructed {cfg : EngineConfig} {sink : Memory} (hc : cfg.legal = true) (hsink : Memory.wf sink) :
    EngineInv (State.constructed cfg sink) where
  cfgLegal := hc
  posInCycle := by cases hm : cfg.m <;> simp [hm, PhaseWidth.cycle, PhaseWidth.val]
  sinkCanonical := hsink
  busyOutstanding := by simp
  faultIndex := by simp
  unlatchedStart := fun _ => rfl
  latchesMatch := by simp
  delivered := by simp
  responsesMatch := (responsesMatch_of_fault_none rfl).2 (by simp)

/-- Settles O56: the engine constructed has a legal configuration, no latches, no fault and no response. -/
theorem constructionGivesInvariant : Obligations.ConstructionGivesInvariant := by
  intro a sink t hsink h
  obtain ⟨hc, hch, m, hm, rfl⟩ := construct_next_cases h
  exact engineInv_constructed (config_legal hm hc hch) hsink

/-- Settles O46: the state after reset is a construction over a sink with every channel unwritten. -/
theorem resetMeetsInvariant : Obligations.ResetMeetsInvariant :=
  constructionGivesInvariant Config.resetArgs [] State.reset Memory.wf_nil rfl

/-- Settles O55: the configuration reads back as the arguments, and every other field is the one construction sets. -/
theorem constructionResetsTheEngine : Obligations.ConstructionResetsTheEngine := by
  refine fun a sink => ⟨fun h8 h16 => construct_of_illegal h8 h16 sink, fun t h => ?_⟩
  obtain ⟨hc, hch, m, hm, rfl⟩ := construct_next_cases h
  have hargs := config_args hm hc hch
  exact ⟨hm, congrArg ConstructionArgs.curve hargs,
    ⟨congrArg ConstructionArgs.chA hargs, congrArg ConstructionArgs.chB hargs, congrArg ConstructionArgs.chPin0 hargs,
      congrArg ConstructionArgs.chPin1 hargs, congrArg ConstructionArgs.chPin2 hargs,
      congrArg ConstructionArgs.chPin3 hargs⟩,
    rfl, rfl, rfl, rfl, rfl, rfl, fun _ => rfl, cmdReady_constructed _ sink⟩

-- THE LAUNCH

/-- A ready engine with a legal configuration accepts a word presented to it at once (40_step_fsm.md R80). -/
theorem step_presentByte_accepts {s : State} (hr : cmdReady s = true) (hc : s.cfg.legal = true) (i : Instr) :
    ∃ u, step (presentByte (encodeByte i) s) = exec i s ∧ exec i s = .next u ∧ u.busy = true := by
  obtain ⟨hb, hf⟩ := (cmdReady_iff s).1 hr
  obtain ⟨l, -, haccept⟩ := accept_ready i.direction i.style hr hc
  exact ⟨_, stepRunsDecodedCommand _ _ i s.hostIn hb hf rfl (decode_encodeByte i), (exec_eq_accept i s).trans haccept,
    rfl⟩

/-- With a legal `M` exactly the named premises launch an engine (70_reset_and_hazards.md R204). -/
theorem launch_gives_engine_iff {a : ConstructionArgs} (hm : a.m = 8 ∨ a.m = 16) (sink : Memory) (ready : List Nat) :
    (∃ t, launch a sink ready = .next t) ↔ LaunchPremises a ready := by
  constructor
  · rintro ⟨t, h⟩
    obtain ⟨hconstruct, hready⟩ := launch_next_iff.1 h
    obtain ⟨hc, hch, -⟩ := construct_next_cases hconstruct
    exact ⟨sinkReadyOn_iff.1 hready, hc, hch⟩
  · rintro ⟨hready, hc, hch⟩
    obtain ⟨-, -, -, hnext⟩ := configurationErrorExactly a sink
    obtain ⟨t, ht⟩ := hnext hm hc hch
    exact ⟨t, launch_next_iff.2 ⟨ht, sinkReadyOn_iff.2 hready⟩⟩

/-- Settles O57: a launch is a construction followed by the check of the sink, and the engine it gives is ready and has a
legal configuration. -/
theorem launchPremisesDecideLaunch : Obligations.LaunchPremisesDecideLaunch := by
  intro a sink ready
  refine ⟨fun h8 h16 => ?_, fun hm => launch_gives_engine_iff hm sink ready, fun t c ht hc hnotReady => ?_, fun t h => ?_⟩
  · have herr := construct_of_illegal h8 h16 sink
    exact (launch_of_construct_ne_next (by simp [herr]) ready).trans herr
  · refine launch_of_not_ready ht (Bool.eq_false_iff.2 fun hready => ?_)
    exact hnotReady (sinkReadyOn_iff.1 hready c hc)
  · obtain ⟨hconstruct, -⟩ := launch_next_iff.1 h
    obtain ⟨hc, hch, m, hm, rfl⟩ := construct_next_cases hconstruct
    have hr := cmdReady_constructed (a.config m) sink
    exact ⟨hconstruct, hr, rfl, fun hsink => constructionGivesInvariant a sink _ hsink hconstruct,
      step_presentByte_accepts hr (config_legal hm hc hch)⟩

end Sys2Proof.Machine
end

section
/-! What stays as it is: the configuration along a run (70_reset_and_hazards.md R209), and the command presented while the
engine is busy (R205). -/

namespace Sys2Proof.Machine

open Sys2Proof

/-- Settles O50: no run changes the configuration, and the invariant at its end bounds table and position. -/
theorem configurationNeverChanges : Obligations.ConfigurationNeverChanges := by
  refine fun n s t hrun => ⟨runSteps_cfg hrun, fun h => ?_⟩
  have hend := runSteps_keeps_engineInv h hrun
  exact ⟨curve_length hend.cfgLegal, hend.posInCycle⟩

/-- A command presented to an engine that is not ready has no effect (70_reset_and_hazards.md R205, 60_exceptions.md
R184). -/
theorem exec_held {s : State} (h : cmdReady s = false) (i : Instr) : exec i s = .next s :=
  (exec_eq_accept i s).trans (accept_held h)

/-- A step of a busy engine leaves the presented words, the position and the latches alone: only the sink acts
(43_actuation_sink.md R165). -/
theorem step_busy_frame {s t : State} (hb : s.busy = true) (h : step s = .next t) :
    t.hostIn = s.hostIn ∧ t.pos = s.pos ∧ t.lat = s.lat := by
  cases step_cases h with
  | accepted _ _ _ _ ready _ _ _ | paused _ ready _ => simp [((cmdReady_iff s).1 ready).1] at hb
  | done rest k l _ _ _ _ => exact ⟨sinkDone_hostIn .., sinkDone_pos .., sinkDone_lat ..⟩
  | err | waited | still => exact ⟨rfl, rfl, rfl⟩

/-- Settles O42: a busy engine leaves the command channel alone until the last `done`, which makes it ready with the word
still presented. -/
theorem busyHoldUntilCompletion : Obligations.BusyHoldUntilCompletion := by
  refine ⟨fun i s hheld => ?_, fun s h hb => ?_, fun i s rest ds more h hb hh hlen ha => ?_⟩
  · obtain hb | hf := hheld
    · exact ⟨exec_held (by simp [cmdReady, hb]) i, takenWord_busy hb⟩
    · exact ⟨exec_held (by simp [cmdReady, hf]) i, takenWord_faulted hf⟩
  · obtain ⟨t, ht⟩ := step_busy_next h hb
    exact ⟨t, ht, step_busy_frame hb ht⟩
  · obtain ⟨hlt, -, hf⟩ := h.busyOutstanding hb
    obtain ⟨-, l, -, hl, -⟩ := outstanding_of_engineInv h hb
    obtain ⟨m, hrun⟩ := runSteps_doneAfter ds more hb hl hlt (by omega) ha
    refine ⟨_, hrun, (cmdReady_iff _).2 ⟨rfl, hf⟩, rfl, rfl, rfl, ?_⟩
    rw [runSteps_add hrun, runSteps_one]
    exact stepRunsDecodedCommand _ _ i rest rfl hf hh (decode_encodeByte i)

end Sys2Proof.Machine
end
